-- ==== Sys2Proof/Word.lean ====
section
/-! DEFINITION. The engine's word types (rule R6: every value is unsigned). -/

namespace Sys2Proof

/-- One byte of memory (rule R60). -/
abbrev Byte := BitVec 8

/-- A checksum word: a partial sum or one word of a stream (rules R24, R100). -/
abbrev Half := BitVec 16

/-- An address, a length, an operand register or an immediate (rules R4, R23). -/
abbrev Word := BitVec 32

/-- A command word (rule R80). It is a parallel value and has no byte order. -/
abbrev Cmd := BitVec 64

end Sys2Proof
end

