-- ==== Sys2Proof/Config.lean ====
section
/-! DEFINITION. The implementation parameters of rule R4 that a program can see, at the values the
spec takes for them (assumption log 7). The spec leaves no value open, so nothing here is opaque. -/

namespace Sys2Proof

/-- The number of byte addresses, `2^AW` with AW = 32 (rules R4, R60). -/
def Config.addressSpace : Nat := 2 ^ 32

/-- COFF_RESET, the reset value of COFF (rules R4, R31, R43; general knowledge G1). -/
def Config.coffReset : Word := 2

/-- ICMP6_NH, the protocol number C6OPEN puts in the pseudo-header (rules R4, R164; general
knowledge G2). -/
def Config.icmp6NextHeader : Byte := 58

/-- PSH_PAD, the number of zero bytes before the protocol number (rules R4, R151; general knowledge
G3; rule R152 shows that no register can tell it from another odd count). -/
def Config.pshPad : Nat := 3

end Sys2Proof
end

