-- ==== Sys2Proof/Names.lean ====
section
/-! DEFINITION. The names the spec gives: the registers of the index space (rule R23), the fault
causes (rule R191), and a fault condition together with its information word. -/

namespace Sys2Proof

/-- The 24 readable names of the register index space, in index order (rule R23). `csum` and
`status` are computed views and hold no state (rules R34, R36). -/
inductive Reg where
  | sum | pend | skip | rem | addr | len | off | size
  | haddr | hlen | coff | proto | ulen | csum | status | finfo
  | src0 | src1 | src2 | src3 | dst0 | dst1 | dst2 | dst3
  deriving DecidableEq, Repr

/-- The six causes of a fault (rule R191). -/
inductive Cause where
  | illOp      -- the opcode is not one of the 14
  | illField   -- a must-be-zero field is not zero
  | illReg     -- an unassigned index, or SET of a read-only register
  | illValue   -- a value that does not fit where it must go
  | addrWrap   -- a range that reaches past the top of the address space
  | busError   -- a byte the platform does not answer
  deriving DecidableEq, Repr

/-- What `raise <Fault>(info)` hands to the latch: the cause and the word for FINFO (rules R7, R191). -/
structure Violation where
  cause : Cause
  info  : Word
  deriving DecidableEq, Repr

end Sys2Proof
end

