-- ==== Sys2Proof/Syntax.lean ====
section
/-! DEFINITION. The commands of the ICA command set, version 1: one constructor per row of
spec/opcode_table.json (rule R83). -/

namespace Sys2Proof

/-- The 14 commands (rule R83). Only SET and GET have operands (rule R81). -/
inductive Instr where
  | nop
  | set (r : Reg) (imm : Word)
  | get (r : Reg)
  | rst
  | acc
  | walk
  | seg
  | fin
  | psh
  | hdr
  | c4open
  | c6open
  | cclose
  | cverify
  deriving DecidableEq, Repr

end Sys2Proof
end

