-- ==== Sys2Proof/Machine/Registers.lean ====
section
/-! DEFINITION. The table of the register index space (rule R23): each register's index, width and
access right; and the code of each fault cause (rule R191). -/

namespace Sys2Proof

/-- The index by which a command word names the register (rule R23). -/
def Reg.index : Reg → BitVec 5
  | .sum   => 0  | .pend  => 1  | .skip   => 2  | .rem   => 3
  | .addr  => 4  | .len   => 5  | .off    => 6  | .size  => 7
  | .haddr => 8  | .hlen  => 9  | .coff   => 10 | .proto => 11
  | .ulen  => 12 | .csum  => 13 | .status => 14 | .finfo => 15
  | .src0  => 16 | .src1  => 17 | .src2   => 18 | .src3  => 19
  | .dst0  => 20 | .dst1  => 21 | .dst2   => 22 | .dst3  => 23

/-- The register an index names; indices 24 to 31 name none (rules R23, R38). -/
def Reg.ofIndex (k : BitVec 5) : Option Reg :=
  match k.toNat with
  | 0  => some .sum   | 1  => some .pend  | 2  => some .skip   | 3  => some .rem
  | 4  => some .addr  | 5  => some .len   | 6  => some .off    | 7  => some .size
  | 8  => some .haddr | 9  => some .hlen  | 10 => some .coff   | 11 => some .proto
  | 12 => some .ulen  | 13 => some .csum  | 14 => some .status | 15 => some .finfo
  | 16 => some .src0  | 17 => some .src1  | 18 => some .src2   | 19 => some .src3
  | 20 => some .dst0  | 21 => some .dst1  | 22 => some .dst2   | 23 => some .dst3
  | _  => none

/-- The number of significant bits (rule R23). -/
def Reg.width : Reg → Nat
  | .sum    => 16
  | .pend   => 9
  | .proto  => 8
  | .csum   => 16
  | .status => 16
  | .skip | .rem | .addr | .len | .off | .size | .haddr | .hlen | .coff | .ulen | .finfo => 32
  | .src0 | .src1 | .src2 | .src3 | .dst0 | .dst1 | .dst2 | .dst3 => 32

/-- Whether SET may write the register: access RW in rule R23. -/
def Reg.writable : Reg → Bool
  | .pend | .skip | .rem | .csum | .status | .finfo => false
  | .sum | .addr | .len | .off | .size | .haddr | .hlen | .coff | .proto | .ulen => true
  | .src0 | .src1 | .src2 | .src3 | .dst0 | .dst1 | .dst2 | .dst3 => true

/-- Whether a SET immediate has no 1 above the register's width (rules R82, R181). -/
def Reg.fits (r : Reg) (imm : Word) : Bool :=
  decide (imm.toNat < 2 ^ r.width)

/-- The code of a cause (rule R191). -/
def Cause.code : Cause → BitVec 8
  | .illOp    => 1
  | .illField => 2
  | .illReg   => 3
  | .illValue => 4
  | .addrWrap => 5
  | .busError => 6

end Sys2Proof
end

