-- ==== Sys2Proof/WellFormed.lean ====
section
/-! DEFINITION. Which commands have a legal encoding (rules R84 items 6 and 7, R85). The other
reserved encodings (rule R85) have no term of Instr at all. -/

namespace Sys2Proof

/-- A command term that some legal word encodes: SET names a read-write register (rule R84 item 6)
and a value that fits it (rule R84 item 7). Every other term is legal. -/
def Instr.wf : Instr → Bool
  | .set r imm => r.writable && r.fits imm
  | .nop | .get _ | .rst | .acc | .walk | .seg | .fin | .psh | .hdr
  | .c4open | .c6open | .cclose | .cverify => true

end Sys2Proof
end

