-- ==== Sys2Proof/Decode.lean ====
section
/-! DEFINITION. The command encoding (spec/30_encoding.md): the fields of a command word, the opcode
map, the decoder with its checks in the order of rule R84, and the encoder of rule R87. -/

namespace Sys2Proof

/-- `op`, bits 63:56 (rule R80). -/
def opField (w : Cmd) : BitVec 8 := w.extractLsb' 56 8

/-- `r`, bits 55:51 (rule R80). -/
def rField (w : Cmd) : BitVec 5 := w.extractLsb' 51 5

/-- `z`, bits 50:32 (rule R80). -/
def zField (w : Cmd) : BitVec 19 := w.extractLsb' 32 19

/-- `imm`, bits 31:0 (rule R80). -/
def immField (w : Cmd) : Word := w.extractLsb' 0 32

/-- `w[63:32]`, the information word of the decode faults (rule R191). -/
def upperHalf (w : Cmd) : Word := w.extractLsb' 32 32

/-- What an opcode selects: a whole command in format N, or GET in format R, or SET in format I
(rule R81). -/
inductive OpForm where
  | n (i : Instr)
  | r
  | i
  deriving DecidableEq, Repr

/-- The opcode map (rule R83). -/
def opcodeMap : List (BitVec 8 × OpForm) :=
  [ (0x00, .n .nop),  (0x01, .i),        (0x02, .r),        (0x03, .n .rst),
    (0x10, .n .acc),  (0x11, .n .walk),  (0x12, .n .seg),   (0x13, .n .fin),
    (0x20, .n .psh),  (0x21, .n .hdr),
    (0x30, .n .c4open), (0x31, .n .c6open), (0x32, .n .cclose), (0x33, .n .cverify) ]

/-- The row of the opcode map for `op`, if there is one. -/
def opForm? (op : BitVec 8) : Option OpForm := opcodeMap.lookup op

/-- The checks on SET's operands, in order: a read-only register, then a value too wide for it
(rule R84 items 6 and 7; rule R181). `hi` is the upper half of the command word. -/
def setViolation? (hi : Word) (r : Reg) (imm : Word) : Option Violation :=
  if r.writable = false then some ⟨.illReg, hi⟩
  else if r.fits imm = false then some ⟨.illValue, imm⟩
  else none

/-- Decoding while FAULT is 0: the checks of rule R84 in its order, then the command. Total on every
64-bit value. -/
def decode (w : Cmd) : Except Violation Instr :=
  match opForm? (opField w) with
  | none => .error ⟨.illOp, upperHalf w⟩
  | some (.n i) =>
    if zField w ≠ 0 then .error ⟨.illField, upperHalf w⟩
    else if rField w ≠ 0 then .error ⟨.illField, upperHalf w⟩
    else if immField w ≠ 0 then .error ⟨.illField, upperHalf w⟩
    else .ok i
  | some .r =>
    if zField w ≠ 0 then .error ⟨.illField, upperHalf w⟩
    else if immField w ≠ 0 then .error ⟨.illField, upperHalf w⟩
    else
      match Reg.ofIndex (rField w) with
      | none => .error ⟨.illReg, upperHalf w⟩
      | some r => .ok (.get r)
  | some .i =>
    if zField w ≠ 0 then .error ⟨.illField, upperHalf w⟩
    else
      match Reg.ofIndex (rField w) with
      | none => .error ⟨.illReg, upperHalf w⟩
      | some r =>
        match setViolation? (upperHalf w) r (immField w) with
        | some v => .error v
        | none => .ok (.set r (immField w))

/-- A command's opcode (rule R83). -/
def Instr.opcode : Instr → BitVec 8
  | .nop     => 0x00
  | .set _ _ => 0x01
  | .get _   => 0x02
  | .rst     => 0x03
  | .acc     => 0x10
  | .walk    => 0x11
  | .seg     => 0x12
  | .fin     => 0x13
  | .psh     => 0x20
  | .hdr     => 0x21
  | .c4open  => 0x30
  | .c6open  => 0x31
  | .cclose  => 0x32
  | .cverify => 0x33

/-- The register-index field a command carries; zero in format N (rule R81). -/
def Instr.rBits : Instr → BitVec 5
  | .set r _ => r.index
  | .get r   => r.index
  | .nop | .rst | .acc | .walk | .seg | .fin | .psh | .hdr
  | .c4open | .c6open | .cclose | .cverify => 0

/-- The immediate field a command carries; zero but for SET (rule R81). -/
def Instr.immBits : Instr → Word
  | .set _ imm => imm
  | .nop | .get _ | .rst | .acc | .walk | .seg | .fin | .psh | .hdr
  | .c4open | .c6open | .cclose | .cverify => 0

/-- A command word from its four fields, `op` in the top bits and `z` zero (rules R80, R81). -/
def commandWord (op : BitVec 8) (r : BitVec 5) (imm : Word) : Cmd :=
  op ++ r ++ 0#19 ++ imm

/-- The word of a command (rule R87). -/
def encode (i : Instr) : Cmd := commandWord i.opcode i.rBits i.immBits

/-- The decoder on an instruction given by its bits as spec/opcode_table.json numbers them: bit 0 is
the least significant bit of the one 64-bit word, and the bits from `nbits` up are zero. -/
def decodeTableWord (nbits w : Nat) : Option Instr :=
  match decode (BitVec.ofNat 64 (w % 2 ^ nbits)) with
  | .ok i => some i
  | .error _ => none

end Sys2Proof
end

