-- ==== Sys2Proof/Machine/State.lean ====
section
/-! DEFINITION. The machine's state as plain data (rule R20 for the engine's registers, rule R40 for
what stands around them), its state after reset (rule R43), and the reasons a step can stop. -/

namespace Sys2Proof.Machine

/-- The partial map from addresses to bytes (rule R60): the addresses the platform answers, strictly
rising, each with its byte. An address that is not listed does not answer (assumption log 2). -/
abbrev Memory := List Host.Cell

/-- The addresses of the list are at least `lo`, below `2^AW`, and strictly rising. -/
def Memory.wfFrom (lo : Nat) : Memory → Bool
  | [] => true
  | (a, _) :: m => decide (lo ≤ a) && decide (a < Config.addressSpace) && Memory.wfFrom (a + 1) m

/-- The one canonical form of a memory: strictly rising addresses, all inside the address space. No
byte is left out, since an unlisted address reads as no byte at all. -/
def Memory.wf (m : Memory) : Bool := Memory.wfFrom 0 m

/-- One response word (rule R183). -/
structure Response where
  ok   : Bool
  data : Word
  deriving DecidableEq, Repr

/-- The pairing state `(sum, pend)` of rule R104; `none` is aligned, `some h` is pending. -/
structure Pairing where
  sum  : Half
  pend : Option Byte
  deriving DecidableEq, Repr

/-- What the host can do (rules R5, R212). Memory may be changed by any agent between commands, and
which addresses answer is the platform's business (rules R69, R72; assumption log 3). -/
inductive HostMove where
  | command (w : Cmd)                        -- issue one command word
  | memory (a : Word) (v : Option Byte)      -- from now on address `a` answers `v`, or not at all
  | takeResponse                             -- take the oldest response from the response port
  | reset                                    -- pulse the reset input, between commands (rule R206)
  deriving DecidableEq, Repr

/-- The engine's registers (rule R20), then what rule R40 calls parameters of the step or history of
the run. -/
structure State where
  sum      : Half               -- R24
  pend     : Option Byte        -- R25
  skip     : Word               -- R26
  rem      : Word               -- R27
  addr     : Word               -- R28
  len      : Word               -- R28
  off      : Word               -- R29
  size     : Word               -- R29
  haddr    : Word               -- R30
  hlen     : Word               -- R30
  coff     : Word               -- R31
  proto    : Byte               -- R32
  ulen     : Word               -- R32
  src0     : Word               -- R33
  src1     : Word               -- R33
  src2     : Word               -- R33
  src3     : Word               -- R33
  dst0     : Word               -- R33
  dst1     : Word               -- R33
  dst2     : Word               -- R33
  dst3     : Word               -- R33
  fault    : Bool               -- FAULT, R35
  cause    : BitVec 8           -- CAUSE, R35
  finfo    : Word               -- FINFO, R35, R37
  mem      : Memory             -- the memory the engine's port reaches, R60
  input    : List HostMove      -- the host's moves not yet made, next one first
  pos      : Nat                -- commands taken so far, R21
  port     : List Response      -- responses sent and not yet taken, oldest first, R183
  received : List Response      -- responses the host has taken, oldest first
  deriving DecidableEq, Repr

/-- Why the machine stops with a fault: never. The step of rule R8 is total. A fault of the spec
(rule R190) is a next state with the latch FAULT, CAUSE, FINFO written (rule R200), so this type has
no constructor (assumption log 10: safe, since nothing is stopped that the spec lets go on). -/
inductive Fault where
  deriving DecidableEq, Repr

/-- Why an instruction is refused. -/
inductive Refusal where
  /-- Raised by exec's arm of an instruction that has no meaning yet; safe, since the machine stops
  where the hardware goes on. No arm raises it: every command has its meaning. -/
  | notModelled (mnemonic : String)
  deriving DecidableEq, Repr

/-- The state after reset (rules R43, R220), before the host has made any move. -/
def State.reset : State where
  sum      := 0
  pend     := none
  skip     := 0
  rem      := 0
  addr     := 0
  len      := 0
  off      := 0
  size     := 0
  haddr    := 0
  hlen     := 0
  coff     := Config.coffReset
  proto    := 0
  ulen     := 0
  src0     := 0
  src1     := 0
  src2     := 0
  src3     := 0
  dst0     := 0
  dst1     := 0
  dst2     := 0
  dst3     := 0
  fault    := false
  cause    := 0
  finfo    := 0
  mem      := []
  input    := []
  pos      := 0
  port     := []
  received := []

end Sys2Proof.Machine
end

