-- ==== Sys2Proof/Machine/Arith.lean ====
section
/-! DEFINITION. One's-complement arithmetic (spec/40_arithmetic.md): the summer, the carry-fold
reducer, the pairing machine and the reference function. -/

namespace Sys2Proof.Machine

/-- A checksum word from its two bytes, the first in the high half (rule R100). -/
def word (hi lo : Byte) : Half := hi ++ lo

/-- Addition with end-around carry: the 17-bit sum's carry is added back at bit 0 (rule R101). -/
def ocadd (a b : Half) : Half :=
  let t := a.toNat + b.toNat
  BitVec.ofNat 16 (t % 2 ^ 16 + t / 2 ^ 16)

/-- The one value from 1 to 0xFFFF congruent to `n` modulo 65535, and 0 for 0 alone (rule R102). -/
def canon (n : Nat) : Nat :=
  if n = 0 then 0 else (n - 1) % 65535 + 1

/-- At most `k` passes of the carry-fold reducer (rule R103). -/
def foldPasses : Nat → Nat → Nat
  | 0, n => n
  | k + 1, n => if 0xFFFF < n then foldPasses k (n % 2 ^ 16 + n / 2 ^ 16) else n

/-- The carry-fold reducer, repeated until the value fits 16 bits (rule R103). Each pass makes the
value smaller, so `n` passes are always enough. -/
def fold (n : Nat) : Nat := foldPasses n n

/-- Taking one byte of the stream (rule R104). -/
def consume (st : Pairing) (b : Byte) : Pairing :=
  match st.pend with
  | none => ⟨st.sum, some b⟩
  | some h => ⟨ocadd st.sum (word h b), none⟩

/-- Taking a byte sequence, first byte first (rules R106, R109). -/
def run (st : Pairing) (bs : List Byte) : Pairing := bs.foldl consume st

/-- Ending a stream: a pending byte is the high byte of a last word (rule R105). -/
def finish (st : Pairing) : Pairing :=
  match st.pend with
  | none => st
  | some h => ⟨ocadd st.sum (word h 0), none⟩

/-- The document's `checksum(bytes, initial)`, byte at a time (rule R106). -/
def csum (bs : List Byte) (init : Half) : Half := (finish (run ⟨init, none⟩ bs)).sum

end Sys2Proof.Machine
end

