-- ==== Sys2Proof/Machine/Ops.lean ====
section
/-! DEFINITION. The named operations over memory and state: the read primitive (rule R63), register
updates, taking a fault (rule R200), leaving it by reset (rules R203, R220), responding (rule R183),
and the test of FAULT that every command but GET and RST makes (rule R202). -/

namespace Sys2Proof.Machine

/-- The byte at an address, if the platform answers there (rule R60). -/
def Memory.read : Memory → Nat → Option Byte
  | [], _ => none
  | (k, b) :: m, a => if k = a then some b else Memory.read m a

/-- The memory after address `a` answers `v` (or, for `none`, does not answer); the canonical form is
kept. Only the host changes memory (rules R62, R69). -/
def Memory.put : Memory → Nat → Option Byte → Memory
  | [], _, none => []
  | [], a, some b => [(a, b)]
  | (k, c) :: m, a, v =>
    if a < k then
      match v with
      | none => (k, c) :: m
      | some b => (a, b) :: (k, c) :: m
    else if a = k then
      match v with
      | none => m
      | some b => (k, b) :: m
    else (k, c) :: Memory.put m a v

/-- The `n` bytes from address `a` up, or the lowest address among them that does not answer. -/
def readBytes (m : Memory) (a : Nat) : Nat → Except Violation (List Byte)
  | 0 => .ok []
  | n + 1 =>
    match Memory.read m a with
    | none => .error ⟨.busError, BitVec.ofNat 32 a⟩
    | some b =>
      match readBytes m (a + 1) n with
      | .error v => .error v
      | .ok bs => .ok (b :: bs)

/-- Whether the range `[a, a+n)` reaches past the top of the address space (rules R61, R196). -/
def wraps (a n : Nat) : Bool := decide (Config.addressSpace < a + n)

/-- `MemRead(a, n)` (rule R63): the wrap check on the whole range, then the bytes, lowest address
first. An empty range reads nothing. -/
def memRead (m : Memory) (a n : Nat) : Except Violation (List Byte) :=
  if wraps a n then .error ⟨.addrWrap, BitVec.ofNat 32 a⟩ else readBytes m a n

/-- Taking a fault: the latch is written and nothing else changes (rule R200). -/
def State.raise (s : State) (v : Violation) : State :=
  { s with fault := true, cause := v.cause.code, finfo := v.info }

/-- `SUM <- v`. -/
def State.withSum (s : State) (v : Half) : State := { s with sum := v }

/-- The pairing state the registers hold (rule R104). -/
def State.pairing (s : State) : Pairing := ⟨s.sum, s.pend⟩

/-- `(SUM, PEND) <- st`. -/
def State.withPairing (s : State) (st : Pairing) : State := { s with sum := st.sum, pend := st.pend }

/-- `SKIP <- sk; REM <- re`. -/
def State.withSelection (s : State) (sk re : Word) : State := { s with skip := sk, rem := re }

/-- `respond(ok, data)`: one response word goes to the response port, after those already there
(rule R183). -/
def State.respond (s : State) (r : Response) : State := { s with port := s.port ++ [r] }

/-- Every register at its reset value (rules R43, R184); memory, the host's moves and the responses
already sent are no registers and stay. -/
def State.resetRegs (s : State) : State :=
  { State.reset with mem := s.mem, input := s.input, pos := s.pos, port := s.port, received := s.received }

/-- The reset input: the registers as RST leaves them, and an empty response port (rule R220). -/
def State.resetInput (s : State) : State := { s.resetRegs with port := [] }

/-- A command that tests FAULT: while it is 1 the command is discarded, with no effect and no
response (rule R202). -/
def unlessFaulted (s : State) (k : State) : Host.Outcome State Fault Refusal :=
  .next (if s.fault then s else k)

/-- The end of a command whose checks or reads may have failed: the fault is taken in the state from
before the command (rule R200), or the result holds. -/
def State.settle (s : State) (r : Except Violation State) : State :=
  match r with
  | .error v => s.raise v
  | .ok t => t

end Sys2Proof.Machine
end

