-- ==== Sys2Proof/Machine/Flags.lean ====
section
/-! DEFINITION. The computed views CSUM (rule R34) and STATUS with its flags (rule R36). -/

namespace Sys2Proof.Machine

/-- CSUM, the complement of SUM (rule R34). -/
def State.csumView (s : State) : Half := ~~~ s.sum

/-- STATUS.VOK, the verification flag: FAULT is 0 and SUM is all ones (rule R36). -/
def State.vok (s : State) : Bool := !s.fault && s.sum == 0xFFFF

/-- STATUS.PENDV, PEND.V (rules R25, R36). -/
def State.pendv (s : State) : Bool := s.pend.isSome

/-- STATUS.SELDONE: REM is 0 (rule R36). -/
def State.seldone (s : State) : Bool := s.rem == 0

/-- The 16 significant bits of STATUS: CAUSE in 15:8, zeros in 7:4, then SELDONE, PENDV, VOK, FAULT
from bit 3 down (rule R36). -/
def State.statusView (s : State) : BitVec 16 :=
  s.cause ++ 0#4 ++ BitVec.ofBool s.seldone ++ BitVec.ofBool s.pendv ++ BitVec.ofBool s.vok
    ++ BitVec.ofBool s.fault

/-- PEND as a 9-bit value: 0 for none, 0x100 + b for a pending byte b (rule R25). -/
def State.pendView (s : State) : BitVec 9 :=
  match s.pend with
  | none => 0
  | some b => 1#1 ++ b

end Sys2Proof.Machine
end

