-- ==== Sys2Proof/Machine/Operands.lean ====
section
/-! DEFINITION. The operand forms: the register index space read and written by SET and GET (rule
R23), the ranges and byte sequences the commands take from their fixed registers (rules R73, R133,
R150, R161). -/

namespace Sys2Proof.Machine

/-- `zext_32(x[r])`, the value GET answers with (rules R23, R182). -/
def State.readReg (s : State) : Reg → Word
  | .sum    => s.sum.setWidth 32
  | .pend   => s.pendView.setWidth 32
  | .skip   => s.skip
  | .rem    => s.rem
  | .addr   => s.addr
  | .len    => s.len
  | .off    => s.off
  | .size   => s.size
  | .haddr  => s.haddr
  | .hlen   => s.hlen
  | .coff   => s.coff
  | .proto  => s.proto.setWidth 32
  | .ulen   => s.ulen
  | .csum   => s.csumView.setWidth 32
  | .status => s.statusView.setWidth 32
  | .finfo  => s.finfo
  | .src0   => s.src0
  | .src1   => s.src1
  | .src2   => s.src2
  | .src3   => s.src3
  | .dst0   => s.dst0
  | .dst1   => s.dst1
  | .dst2   => s.dst2
  | .dst3   => s.dst3

/-- `x[r] <- v[width-1:0]` (rule R181). SET of a read-only register has faulted before it comes here,
so those registers are left as they are. -/
def State.writeReg (s : State) (r : Reg) (v : Word) : State :=
  match r with
  | .sum    => { s with sum := v.setWidth 16 }
  | .addr   => { s with addr := v }
  | .len    => { s with len := v }
  | .off    => { s with off := v }
  | .size   => { s with size := v }
  | .haddr  => { s with haddr := v }
  | .hlen   => { s with hlen := v }
  | .coff   => { s with coff := v }
  | .proto  => { s with proto := v.setWidth 8 }
  | .ulen   => { s with ulen := v }
  | .src0   => { s with src0 := v }
  | .src1   => { s with src1 := v }
  | .src2   => { s with src2 := v }
  | .src3   => { s with src3 := v }
  | .dst0   => { s with dst0 := v }
  | .dst1   => { s with dst1 := v }
  | .dst2   => { s with dst2 := v }
  | .dst3   => { s with dst3 := v }
  | .pend | .skip | .rem | .csum | .status | .finfo => s

/-- The bytes of the range `[ADDR, ADDR+LEN)`, which ACC reads (rule R73). -/
def State.readSegment (s : State) : Except Violation (List Byte) :=
  memRead s.mem s.addr.toNat s.len.toNat

/-- The bytes of the range `[HADDR, HADDR+HLEN)`, which HDR, CCLOSE and CVERIFY read (rule R73). -/
def State.readHeader (s : State) : Except Violation (List Byte) :=
  memRead s.mem s.haddr.toNat s.hlen.toNat

/-- The bytes of the next segment that lie before the selection: `min(SKIP, LEN)` (rule R133). -/
def State.segSkip (s : State) : Nat := min s.skip.toNat s.len.toNat

/-- The bytes of the next segment that lie inside the selection: `min(REM, LEN - s)` (rule R133). -/
def State.segTake (s : State) : Nat := min s.rem.toNat (s.len.toNat - s.segSkip)

/-- The taken bytes of the next segment: the wrap check on the whole segment, then the read of the
taken part alone (rule R133). -/
def State.readTaken (s : State) : Except Violation (List Byte) :=
  if wraps s.addr.toNat s.len.toNat then .error ⟨.addrWrap, s.addr⟩
  else memRead s.mem (s.addr.toNat + s.segSkip) s.segTake

/-- `masked(h, c)`: bytes `c` and `c + 1`, where they exist, replaced by 0 (rule R161). -/
def masked (h : List Byte) (c : Nat) : List Byte :=
  h.mapIdx fun j b => if j = c ∨ j = c + 1 then 0 else b

/-- The four bytes of a 32-bit value, most significant first (rules R33, R151). -/
def wordBytes (w : Word) : List Byte :=
  [w.extractLsb' 24 8, w.extractLsb' 16 8, w.extractLsb' 8 8, w.extractLsb' 0 8]

/-- The 16 bytes of the source address (rule R33). -/
def State.srcBytes (s : State) : List Byte :=
  wordBytes s.src0 ++ wordBytes s.src1 ++ wordBytes s.src2 ++ wordBytes s.src3

/-- The 16 bytes of the destination address (rule R33). -/
def State.dstBytes (s : State) : List Byte :=
  wordBytes s.dst0 ++ wordBytes s.dst1 ++ wordBytes s.dst2 ++ wordBytes s.dst3

/-- The pseudo-header: source, destination, length, zero padding, protocol number (rule R151). -/
def pseudo (src dst : List Byte) (ulen : Word) (proto : Byte) : List Byte :=
  src ++ dst ++ wordBytes ulen ++ List.replicate Config.pshPad 0 ++ [proto]

/-- The pseudo-header sum over SRC and DST, from the initial value 0 (rules R150, R164). -/
def State.pseudoSum (s : State) (ulen : Word) (proto : Byte) : Half :=
  csum (pseudo s.srcBytes s.dstBytes ulen proto) 0

/-- The declared upper-layer length of an ICMPv6 message, `HLEN + SIZE`, or IllValue with its low 32
bits when it does not fit the 32-bit length field (rule R164). -/
def State.icmp6Length (s : State) : Except Violation Word :=
  let u := s.hlen.toNat + s.size.toNat
  if 2 ^ 32 ≤ u then .error ⟨.illValue, BitVec.ofNat 32 u⟩ else .ok (BitVec.ofNat 32 u)

end Sys2Proof.Machine
end

