-- ==== Sys2Proof/Machine/Composer.lean ====
section
/-! DEFINITION. The pseudo-header command PSH (spec/43_pseudo_header.md) and the composers HDR,
C4OPEN, C6OPEN, CCLOSE, CVERIFY (spec/44_composers.md). -/

namespace Sys2Proof.Machine

/-- PSH: SUM gets the pseudo-header sum, whatever it held (rule R150). -/
def execPsh (s : State) : Host.Outcome State Fault Refusal :=
  unlessFaulted s (s.withSum (s.pseudoSum s.ulen s.proto))

/-- HDR: the header, with its checksum field as zero, summed onto SUM (rule R160). -/
def execHdr (s : State) : Host.Outcome State Fault Refusal :=
  unlessFaulted s <| s.settle <|
    match s.readHeader with
    | .error v => .error v
    | .ok h => .ok (s.withSum (csum (masked h s.coff.toNat) s.sum))

/-- C4OPEN: open an ICMPv4 composition over SIZE payload bytes (rule R163). -/
def execC4open (s : State) : Host.Outcome State Fault Refusal :=
  unlessFaulted s ((s.withPairing ⟨0, none⟩).withSelection 0 s.size)

/-- C6OPEN: open an ICMPv6 composition on the pseudo-header sum with the length HLEN + SIZE and the
protocol number ICMP6_NH (rule R164). -/
def execC6open (s : State) : Host.Outcome State Fault Refusal :=
  unlessFaulted s <| s.settle <|
    match s.icmp6Length with
    | .error v => .error v
    | .ok u =>
      .ok ((s.withPairing ⟨s.pseudoSum u Config.icmp6NextHeader, none⟩).withSelection 0 s.size)

/-- CCLOSE: FIN, then HDR, as one atomic command (rule R166). -/
def execCclose (s : State) : Host.Outcome State Fault Refusal :=
  unlessFaulted s <| s.settle <|
    match s.readHeader with
    | .error v => .error v
    | .ok h => .ok (s.withPairing ⟨csum (masked h s.coff.toNat) (finish s.pairing).sum, none⟩)

/-- CVERIFY: FIN, then the header as it stands in memory, its checksum field included (rule R169). -/
def execCverify (s : State) : Host.Outcome State Fault Refusal :=
  unlessFaulted s <| s.settle <|
    match s.readHeader with
    | .error v => .error v
    | .ok h => .ok (s.withPairing ⟨csum h (finish s.pairing).sum, none⟩)

end Sys2Proof.Machine
end

