-- ==== Sys2Proof/Machine/System.lean ====
section
/-! DEFINITION. The system commands NOP, SET, GET, RST (spec/45_system.md). -/

namespace Sys2Proof.Machine

/-- NOP: no effect, faulted or not (rule R180). -/
def execNop (s : State) : Host.Outcome State Fault Refusal := unlessFaulted s s

/-- SET r, imm (rule R181). The decoder has made the same checks on every word (rule R84 items 6 and
7), so they fail here only for a term that no legal word encodes (assumption log 9). -/
def execSet (r : Reg) (imm : Word) (s : State) : Host.Outcome State Fault Refusal :=
  unlessFaulted s <| s.settle <|
    match setViolation? (upperHalf (encode (.set r imm))) r imm with
    | some v => .error v
    | none => .ok (s.writeReg r imm)

/-- What GET answers: while a fault is latched the sum is withheld (rules R182, R183, R202). -/
def State.answer (s : State) (r : Reg) : Response :=
  if s.fault ∧ (r = .sum ∨ r = .csum) then ⟨false, 0⟩ else ⟨true, s.readReg r⟩

/-- GET r: one response, no register changed; it works while FAULT is 1 (rules R182, R202). -/
def execGet (r : Reg) (s : State) : Host.Outcome State Fault Refusal :=
  .next (s.respond (s.answer r))

/-- RST: every register at its reset value; it works while FAULT is 1 (rules R184, R202). -/
def execRst (s : State) : Host.Outcome State Fault Refusal := .next s.resetRegs

end Sys2Proof.Machine
end

