-- ==== Sys2Proof/Machine/Walker.lean ====
section
/-! DEFINITION. The scalar accumulator ACC (spec/41_accumulator.md) and the segmented walker WALK,
SEG, FIN (spec/42_walker.md). -/

namespace Sys2Proof.Machine

/-- ACC: the range is a complete stream of its own, summed onto SUM (rule R120). -/
def execAcc (s : State) : Host.Outcome State Fault Refusal :=
  unlessFaulted s <| s.settle <|
    match s.readSegment with
    | .error v => .error v
    | .ok bs => .ok (s.withSum (csum bs s.sum))

/-- WALK: begin a walk over `[OFF, OFF+SIZE)`; SUM stays as the initial value (rule R131). -/
def execWalk (s : State) : Host.Outcome State Fault Refusal :=
  unlessFaulted s ((s.withPairing ⟨s.sum, none⟩).withSelection s.off s.size)

/-- SEG: skip, take and ignore bytes of the segment; only the taken ones are read, and only they pass
through the pairing machine (rules R133, R134). -/
def execSeg (s : State) : Host.Outcome State Fault Refusal :=
  unlessFaulted s <| s.settle <|
    match s.readTaken with
    | .error v => .error v
    | .ok bs =>
      .ok ((s.withPairing (run s.pairing bs)).withSelection
        (BitVec.ofNat 32 (s.skip.toNat - s.segSkip)) (BitVec.ofNat 32 (s.rem.toNat - s.segTake)))

/-- FIN: flush the pending byte; SKIP and REM stay (rule R135). -/
def execFin (s : State) : Host.Outcome State Fault Refusal :=
  unlessFaulted s (s.withPairing (finish s.pairing))

end Sys2Proof.Machine
end

