-- ==== Sys2Proof/Machine/Dispatch.lean ====
section
/-! DEFINITION. One arm per command. -/

namespace Sys2Proof.Machine

def exec (i : Instr) (s : State) : Host.Outcome State Fault Refusal :=
  match i with
  | .nop => Sys2Proof.Machine.execNop s
  | .set r imm => Sys2Proof.Machine.execSet r imm s
  | .get r => Sys2Proof.Machine.execGet r s
  | .rst => Sys2Proof.Machine.execRst s
  | .acc => Sys2Proof.Machine.execAcc s
  | .walk => Sys2Proof.Machine.execWalk s
  | .seg => Sys2Proof.Machine.execSeg s
  | .fin => Sys2Proof.Machine.execFin s
  | .psh => Sys2Proof.Machine.execPsh s
  | .hdr => Sys2Proof.Machine.execHdr s
  | .c4open => Sys2Proof.Machine.execC4open s
  | .c6open => Sys2Proof.Machine.execC6open s
  | .cclose => Sys2Proof.Machine.execCclose s
  | .cverify => Sys2Proof.Machine.execCverify s

end Sys2Proof.Machine
end

