-- ==== Sys2Proof/Machine/Issue.lean ====
section
/-! DEFINITION. What one command word does (rules R84, R200, R202), and what each move of the host
does (rules R5, R212). -/

namespace Sys2Proof.Machine

/-- One command word arrives: a legal word executes, and every other word raises its decode fault
(rule R84), or is discarded while FAULT is 1 (rule R202). -/
def issue (w : Cmd) (s : State) : Host.Outcome State Fault Refusal :=
  match decode w with
  | .ok i => exec i s
  | .error v => unlessFaulted s (s.raise v)

/-- The host's next move is taken from its list. -/
def State.withInput (s : State) (rest : List HostMove) : State := { s with input := rest }

/-- One command is taken: the position in the host's command list advances by exactly 1 (rule R21). -/
def State.advance (s : State) : State := { s with pos := s.pos + 1 }

/-- The host, or another agent, changes what an address answers (rules R69, R72). -/
def State.changeMemory (s : State) (a : Word) (v : Option Byte) : State :=
  { s with mem := Memory.put s.mem a.toNat v }

/-- The host takes the oldest response; from an empty port it takes nothing (rules R183, R212). -/
def State.takeResponse (s : State) : State :=
  match s.port with
  | [] => s
  | r :: rest => { s with port := rest, received := s.received ++ [r] }

/-- One move of the host. -/
def makeMove (m : HostMove) (s : State) : Host.Outcome State Fault Refusal :=
  match m with
  | .command w => issue w s.advance
  | .memory a v => .next (s.changeMemory a v)
  | .takeResponse => .next s.takeResponse
  | .reset => .next s.resetInput

/-- The whole step: the host's next move is made; with none left the engine is idle and keeps all its
state (rules R5, R208; assumption log 1). -/
def stepMove (s : State) : Host.Outcome State Fault Refusal :=
  match s.input with
  | [] => .next s
  | m :: rest => makeMove m (s.withInput rest)

/-- A command word put where the engine takes its next command. -/
def State.withNextCommand (s : State) (w : Cmd) : State :=
  { s with input := .command w :: s.input }

end Sys2Proof.Machine
end

