-- ==== Sys2Proof/Safety.lean ====
section
/-! DEFINITION. The terms claims are stated in: the invariant of the reachable states (rule R41), what
a command leaves alone (rule R44), and a sequence of commands executed in order (rule R5). -/

namespace Sys2Proof.Machine

/-- The fault latch is in one of its legal conditions: clear, with CAUSE and FINFO 0 (rule R41 item
5), or set, with one of the six codes in CAUSE (rule R191). -/
def State.LatchLegal (s : State) : Prop :=
  (s.fault = false → s.cause = 0 ∧ s.finfo = 0) ∧
  (s.fault = true → ∃ c : Cause, s.cause = c.code)

/-- The invariant: the memory is in its canonical form and the fault latch is legal. -/
def State.Inv (s : State) : Prop := Memory.wf s.mem = true ∧ s.LatchLegal

/-- Both states hold the same operand registers: those only SET and reset write (rules R20, R44). -/
def SameOperands (s t : State) : Prop :=
  t.addr = s.addr ∧ t.len = s.len ∧ t.off = s.off ∧ t.size = s.size ∧
  t.haddr = s.haddr ∧ t.hlen = s.hlen ∧ t.coff = s.coff ∧ t.proto = s.proto ∧ t.ulen = s.ulen ∧
  t.src0 = s.src0 ∧ t.src1 = s.src1 ∧ t.src2 = s.src2 ∧ t.src3 = s.src3 ∧
  t.dst0 = s.dst0 ∧ t.dst1 = s.dst1 ∧ t.dst2 = s.dst2 ∧ t.dst3 = s.dst3

/-- Both states hold the same walk counters. -/
def SameSelection (s t : State) : Prop := t.skip = s.skip ∧ t.rem = s.rem

/-- Both states hold the same fault latch (rule R35). -/
def SameLatch (s t : State) : Prop := t.fault = s.fault ∧ t.cause = s.cause ∧ t.finfo = s.finfo

/-- Both states have the same surroundings: every byte of memory reads the same, and the host's list,
the position in it and the responses already taken are the same (rule R40). -/
def SameSurroundings (s t : State) : Prop :=
  (∀ a : Nat, Memory.read t.mem a = Memory.read s.mem a) ∧
  t.input = s.input ∧ t.pos = s.pos ∧ t.received = s.received

/-- The commands executed in order, stopping at the first that does not give a next state. -/
def execAll : List Instr → State → Host.Outcome State Fault Refusal
  | [], s => .next s
  | i :: is, s =>
    match exec i s with
    | .next t => execAll is t
    | .fault f => .fault f
    | .refused r => .refused r

/-- The commands that feed the segments `[a, a+n)` to a walk: the pseudo-instruction SEGI for each, in
order (rule R88). -/
def feed (segs : List (Word × Word)) : List Instr :=
  segs.flatMap fun g => [.set .addr g.1, .set .len g.2, .seg]

/-- The bytes `bs` stand in memory from address `a` up (rule R61). -/
def HoldsBytes (m : Memory) (a : Nat) (bs : List Byte) : Prop :=
  ∀ (k : Nat) (b : Byte), bs[k]? = some b → Memory.read m (a + k) = some b

/-- `x` is the lowest address of the range `[a, a+n)` that the platform does not answer (rule R63). -/
def FirstUnanswered (m : Memory) (a n x : Nat) : Prop :=
  a ≤ x ∧ x < a + n ∧ Memory.read m x = none ∧ ∀ y : Nat, a ≤ y → y < x → Memory.read m y ≠ none

/-- The addresses a command reads (rule R73). -/
def Reads (i : Instr) (s : State) (a : Nat) : Prop :=
  match i with
  | .acc => s.addr.toNat ≤ a ∧ a < s.addr.toNat + s.len.toNat
  | .seg => s.addr.toNat + s.segSkip ≤ a ∧ a < s.addr.toNat + s.segSkip + s.segTake
  | .hdr | .cclose | .cverify => s.haddr.toNat ≤ a ∧ a < s.haddr.toNat + s.hlen.toNat
  | .nop | .set _ _ | .get _ | .rst | .walk | .fin | .psh | .c4open | .c6open => False

/-- The sum, as a natural number, of the big-endian 16-bit words of a byte sequence, an odd last byte
being the high byte of a word whose low byte is 0 (rules R64, R106). -/
def wordSum : List Byte → Nat
  | [] => 0
  | [hi] => hi.toNat * 256
  | hi :: lo :: bs => hi.toNat * 256 + lo.toNat + wordSum bs

/-- The bytes of the segments one after the other, if every one is populated and none wraps: the
logical byte stream (rules R61, R136). -/
def streamOf (m : Memory) : List (Word × Word) → Except Violation (List Byte)
  | [] => .ok []
  | (a, n) :: segs =>
    match memRead m a.toNat n.toNat with
    | .error v => .error v
    | .ok bs =>
      match streamOf m segs with
      | .error v => .error v
      | .ok rest => .ok (bs ++ rest)

end Sys2Proof.Machine
end

