-- ==== Sys2Proof/Certificates/Slice0/Obligations.lean ====
section
/-! DEFINITION. The statements for the provers, from the numbered rules of spec/. -/

open Sys2Proof Sys2Proof.Machine

/-! ### Encoding and decoding (spec/30_encoding.md) -/

/-- Every well-formed command decodes back from its own word (rules R84, R87): no bit of a register
index or an immediate is lost. -/
def Obligations.DecodeOfEncodeIsTheCommand : Prop :=
  ∀ i : Instr, i.wf = true → decode (encode i) = .ok i

/-- A word that decodes is the word of the command it decodes to, and that command is well-formed: each
legal command has one word (rules R81, R85). -/
def Obligations.EncodeOfDecodeIsTheWord : Prop :=
  ∀ (w : Cmd) (i : Instr), decode w = .ok i → i.wf = true ∧ encode i = w

/-- The 14 match words of rule R83; GET of each of the 24 registers and SET of 1 to each of the 18
writable ones, in the words of 95_test_vectors.md Y1 and Y2, which hold the index table of rule R23;
and the two examples of rule R181: each decodes to its command. -/
def Obligations.SpecWordsDecodeToTheirCommands : Prop :=
  (∀ p ∈ ([
      (0x0000000000000000, .nop), (0x0100000000000000, .set .sum 0), (0x0200000000000000, .get .sum),
      (0x0300000000000000, .rst), (0x1000000000000000, .acc), (0x1100000000000000, .walk),
      (0x1200000000000000, .seg), (0x1300000000000000, .fin), (0x2000000000000000, .psh),
      (0x2100000000000000, .hdr), (0x3000000000000000, .c4open), (0x3100000000000000, .c6open),
      (0x3200000000000000, .cclose), (0x3300000000000000, .cverify) ] :
      List (Cmd × Instr)), decode p.1 = .ok p.2) ∧
  (∀ p ∈ ([
      (0x0200000000000000, .get .sum), (0x0208000000000000, .get .pend), (0x0210000000000000, .get .skip),
      (0x0218000000000000, .get .rem), (0x0220000000000000, .get .addr), (0x0228000000000000, .get .len),
      (0x0230000000000000, .get .off), (0x0238000000000000, .get .size), (0x0240000000000000, .get .haddr),
      (0x0248000000000000, .get .hlen), (0x0250000000000000, .get .coff), (0x0258000000000000, .get .proto),
      (0x0260000000000000, .get .ulen), (0x0268000000000000, .get .csum), (0x0270000000000000, .get .status),
      (0x0278000000000000, .get .finfo), (0x0280000000000000, .get .src0), (0x0288000000000000, .get .src1),
      (0x0290000000000000, .get .src2), (0x0298000000000000, .get .src3), (0x02A0000000000000, .get .dst0),
      (0x02A8000000000000, .get .dst1), (0x02B0000000000000, .get .dst2), (0x02B8000000000000, .get .dst3) ] :
      List (Cmd × Instr)), decode p.1 = .ok p.2) ∧
  (∀ p ∈ ([
      (0x0100000000000001, .set .sum 1), (0x0120000000000001, .set .addr 1), (0x0128000000000001, .set .len 1),
      (0x0130000000000001, .set .off 1), (0x0138000000000001, .set .size 1), (0x0140000000000001, .set .haddr 1),
      (0x0148000000000001, .set .hlen 1), (0x0150000000000001, .set .coff 1), (0x0158000000000001, .set .proto 1),
      (0x0160000000000001, .set .ulen 1), (0x0180000000000001, .set .src0 1), (0x0188000000000001, .set .src1 1),
      (0x0190000000000001, .set .src2 1), (0x0198000000000001, .set .src3 1), (0x01A0000000000001, .set .dst0 1),
      (0x01A8000000000001, .set .dst1 1), (0x01B0000000000001, .set .dst2 1), (0x01B8000000000001, .set .dst3 1) ] :
      List (Cmd × Instr)), decode p.1 = .ok p.2) ∧
  decode 0x010000000000004D = .ok (.set .sum 77) ∧
  decode 0x0120000000002101 = .ok (.set .addr 0x2101)

/-- While FAULT is 0, every one of the `2^64` words meets the checks of rule R84 in its order: the
first that fails latches its fault and nothing else changes but the position in the host's list; a
word that passes them all executes the command its fields name. -/
def Obligations.WordsAreCheckedInOrder : Prop :=
  ∀ (s : State) (w : Cmd) (rest : List HostMove), s.fault = false → s.input = .command w :: rest →
    let s1 : State := { s with input := rest, pos := s.pos + 1 }
    let op := w.toNat / 2 ^ 56
    let r := w.toNat / 2 ^ 51 % 2 ^ 5
    let z := w.toNat / 2 ^ 32 % 2 ^ 19
    let imm := w.toNat % 2 ^ 32
    let hi : Word := BitVec.ofNat 32 (w.toNat / 2 ^ 32)
    if op ∉ [0x00, 0x01, 0x02, 0x03, 0x10, 0x11, 0x12, 0x13, 0x20, 0x21, 0x30, 0x31, 0x32, 0x33] then
      step s = .next { s1 with fault := true, cause := 1, finfo := hi }
    else if z ≠ 0 then step s = .next { s1 with fault := true, cause := 2, finfo := hi }
    else if op ≠ 0x01 ∧ op ≠ 0x02 ∧ r ≠ 0 then
      step s = .next { s1 with fault := true, cause := 2, finfo := hi }
    else if op ≠ 0x01 ∧ imm ≠ 0 then
      step s = .next { s1 with fault := true, cause := 2, finfo := hi }
    else if (op = 0x01 ∨ op = 0x02) ∧ 24 ≤ r then
      step s = .next { s1 with fault := true, cause := 3, finfo := hi }
    else if op = 0x01 ∧ r ∈ [1, 2, 3, 13, 14, 15] then
      step s = .next { s1 with fault := true, cause := 3, finfo := hi }
    else if op = 0x01 ∧ (r = 0 ∧ 2 ^ 16 ≤ imm ∨ r = 11 ∧ 2 ^ 8 ≤ imm) then
      step s = .next { s1 with fault := true, cause := 4, finfo := BitVec.ofNat 32 imm }
    else ∃ i : Instr, i.opcode.toNat = op ∧ i.rBits.toNat = r ∧ i.immBits.toNat = imm ∧
      step s = exec i s1

/-- When the host's next move issues a word that decodes to a command, the step is that command's
meaning, run after the word has left the host's list and the position has advanced by 1 (rules R5,
R21). -/
def Obligations.StepRunsTheDecodedCommand : Prop :=
  ∀ (s : State) (w : Cmd) (rest : List HostMove) (i : Instr),
    s.input = .command w :: rest → decode w = .ok i →
    step s = exec i { s with input := rest, pos := s.pos + 1 }

/-! ### Arithmetic (spec/40_arithmetic.md) -/

/-- `ocadd` adds the carry out of bit 15 back at bit 0, and one fold is enough (rule R101). -/
def Obligations.OcaddAddsTheCarryBack : Prop :=
  ∀ a b : Half, (ocadd a b).toNat = (a.toNat + b.toNat) % 2 ^ 16 + (a.toNat + b.toNat) / 2 ^ 16

/-- `ocadd(a, b) = canon(a + b)`, and its consequences on the two zeros and on complements: an inference
the spec draws from rule R101 (40_arithmetic.md section 2, 'Exact value of ocadd'). -/
def Obligations.OcaddIsTheCanonicalSum : Prop :=
  (∀ a b : Half, (ocadd a b).toNat = canon (a.toNat + b.toNat)) ∧
  (∀ a b : Half, ocadd a b = 0 ↔ a = 0 ∧ b = 0) ∧
  (∀ a : Half, ocadd a 0xFFFF = if a = 0 then 0xFFFF else a) ∧
  (∀ a : Half, ocadd a (~~~ a) = 0xFFFF)

/-- One's-complement addition is commutative and associative with 0 as identity: the laws the spec
derives in 40_arithmetic.md section 2. -/
def Obligations.OcaddIsACommutativeMonoid : Prop :=
  (∀ a b : Half, ocadd a b = ocadd b a) ∧
  (∀ a b c : Half, ocadd (ocadd a b) c = ocadd a (ocadd b c)) ∧
  (∀ a : Half, ocadd a 0 = a)

/-- Folding a wide sum gives its canonical value, and adding words one at a time gives the fold of
their wide sum: an inference the spec draws in 40_arithmetic.md section 2 (rule R103). -/
def Obligations.FoldOnceEqualsAddingWordByWord : Prop :=
  (∀ n : Nat, fold n = canon n) ∧
  (∀ (i : Half) (ws : List Half),
    (ws.foldl ocadd i).toNat = fold (i.toNat + (ws.map BitVec.toNat).sum))

/-- The pairing machine: a word is `hi * 256 + lo`; an aligned machine holds a byte, a pending one
completes a word with it, and the end of a stream pads a pending byte with a zero low byte (rules
R100, R104, R105). -/
def Obligations.PairingMachineHoldsThenCompletes : Prop :=
  (∀ hi lo : Byte, (word hi lo).toNat = hi.toNat * 256 + lo.toNat) ∧
  (∀ (x : Half) (b : Byte), consume ⟨x, none⟩ b = ⟨x, some b⟩) ∧
  (∀ (x : Half) (h b : Byte), consume ⟨x, some h⟩ b = ⟨ocadd x (word h b), none⟩) ∧
  (∀ x : Half, finish ⟨x, none⟩ = ⟨x, none⟩) ∧
  (∀ (x : Half) (h : Byte), finish ⟨x, some h⟩ = ⟨ocadd x (word h 0), none⟩)

/-- The byte-at-a-time checksum is the fold of the initial value and the big-endian words of the
sequence, an odd last byte padded: the closed form the spec derives in 40_arithmetic.md section 4. -/
def Obligations.CsumIsTheFoldOfItsWords : Prop :=
  ∀ (bs : List Byte) (init : Half), (csum bs init).toNat = fold (init.toNat + wordSum bs)

/-- Chaining: an even-length prefix may be summed first; a prefix of any length may be run first if the
pending byte is carried; sums of even-aligned pieces combine by `ocadd`; and the initial value is
added like any other word (40_arithmetic.md section 5). -/
def Obligations.CsumChains : Prop :=
  (∀ (a b : List Byte) (i : Half), a.length % 2 = 0 → csum (a ++ b) i = csum b (csum a i)) ∧
  (∀ (a b : List Byte) (i : Half), csum (a ++ b) i = (finish (run (run ⟨i, none⟩ a) b)).sum) ∧
  (∀ (a b : List Byte) (i : Half), a.length % 2 = 0 →
    csum (a ++ b) i = ocadd (csum a i) (csum b 0) ∧
    csum (a ++ b) i = ocadd (csum a 0) (csum b i)) ∧
  (∀ (a : List Byte) (i : Half), csum a i = ocadd (csum a 0) i)

/-! ### System commands (spec/45_system.md) -/

/-- NOP is the all-zero word and has no effect, faulted or not; a word with its opcode and a reserved
bit set raises IllField (rule R180). -/
def Obligations.NopAsSpecified : Prop :=
  encode .nop = 0x0000000000000000 ∧
  (∀ s : State, exec .nop s = .next s) ∧
  (∀ w : Cmd, w.toNat / 2 ^ 56 = 0 → w ≠ 0 →
    decode w = .error ⟨.illField, BitVec.ofNat 32 (w.toNat / 2 ^ 32)⟩)

/-- SET (rule R181): its word; an unassigned index and a read-only register raise IllReg with the upper
half of the word; a value too wide raises IllValue with the value; every other SET writes the named
register and nothing else. CSUM and STATUS, which are computed from SUM, follow a SET of SUM. -/
def Obligations.SetAsSpecified : Prop :=
  (∀ (r : Reg) (imm : Word),
    (encode (.set r imm)).toNat = 2 ^ 56 + r.index.toNat * 2 ^ 51 + imm.toNat) ∧
  (∀ (k : BitVec 5) (imm : Word), 24 ≤ k.toNat →
    decode (commandWord 0x01 k imm) = .error ⟨.illReg, upperHalf (commandWord 0x01 k imm)⟩) ∧
  (∀ (r : Reg) (imm : Word) (s : State), s.fault = false →
    r ∈ [Reg.pend, .skip, .rem, .csum, .status, .finfo] →
    exec (.set r imm) s =
      .next { s with fault := true, cause := 3, finfo := upperHalf (encode (.set r imm)) }) ∧
  (∀ (r : Reg) (imm : Word) (s : State), s.fault = false →
    (r = .sum ∧ 2 ^ 16 ≤ imm.toNat ∨ r = .proto ∧ 2 ^ 8 ≤ imm.toNat) →
    exec (.set r imm) s = .next { s with fault := true, cause := 4, finfo := imm }) ∧
  (∀ (r : Reg) (imm : Word) (s : State), s.fault = false →
    r ∉ [Reg.pend, .skip, .rem, .csum, .status, .finfo] →
    (r = .sum → imm.toNat < 2 ^ 16) → (r = .proto → imm.toNat < 2 ^ 8) →
    ∃ t : State, exec (.set r imm) s = .next t ∧ t.readReg r = imm ∧
      (∀ q : Reg, q ≠ r → (r = .sum → q ≠ .csum ∧ q ≠ .status) → t.readReg q = s.readReg q) ∧
      SameLatch s t ∧ SameSurroundings s t ∧ t.port = s.port)

/-- GET (rule R182): its word; one response with the register's value, or (0, 0) for SUM and CSUM while
a fault is latched; no register changes. GET of an unassigned index raises IllReg and sends nothing,
and is discarded while FAULT is 1. -/
def Obligations.GetAsSpecified : Prop :=
  (∀ r : Reg, (encode (.get r)).toNat = 2 * 2 ^ 56 + r.index.toNat * 2 ^ 51) ∧
  (∀ (r : Reg) (s : State), s.fault = true → r = .sum ∨ r = .csum →
    exec (.get r) s = .next { s with port := s.port ++ [⟨false, 0⟩] }) ∧
  (∀ (r : Reg) (s : State), s.fault = false ∨ (r ≠ .sum ∧ r ≠ .csum) →
    exec (.get r) s = .next { s with port := s.port ++ [⟨true, s.readReg r⟩] }) ∧
  (∀ (k : BitVec 5) (s : State) (rest : List HostMove), 24 ≤ k.toNat →
    s.input = .command (commandWord 0x02 k 0) :: rest →
    step s = .next (if s.fault then { s with input := rest, pos := s.pos + 1 }
      else { s with
              input := rest, pos := s.pos + 1
              fault := true, cause := 3, finfo := upperHalf (commandWord 0x02 k 0) }))

/-- What GET reads: each 32-bit register is its own field (rules R23, R26 to R33, R37), SUM and PROTO
are zero-extended, PEND is 0 or 0x100 + b (rule R25), CSUM is 0xFFFF - SUM (rule R34), and STATUS is
built from FAULT, VOK, PENDV, SELDONE and CAUSE at bits 0, 1, 2, 3 and 15:8 (rule R36). -/
def Obligations.ComputedViewsReadAsSpecified : Prop :=
  ∀ s : State,
    [Reg.skip, .rem, .addr, .len, .off, .size, .haddr, .hlen, .coff, .ulen, .finfo,
      .src0, .src1, .src2, .src3, .dst0, .dst1, .dst2, .dst3].map s.readReg =
    [s.skip, s.rem, s.addr, s.len, s.off, s.size, s.haddr, s.hlen, s.coff, s.ulen, s.finfo,
      s.src0, s.src1, s.src2, s.src3, s.dst0, s.dst1, s.dst2, s.dst3] ∧
    (s.readReg .sum).toNat = s.sum.toNat ∧
    (s.readReg .pend).toNat = (match s.pend with | none => 0 | some b => 0x100 + b.toNat) ∧
    (s.readReg .csum).toNat = 0xFFFF - s.sum.toNat ∧
    (s.readReg .proto).toNat = s.proto.toNat ∧
    (s.readReg .status).toNat =
      (if s.fault then 1 else 0) + (if s.fault = false ∧ s.sum = 0xFFFF then 2 else 0) +
      (if s.pend = none then 0 else 4) + (if s.rem = 0 then 8 else 0) + 256 * s.cause.toNat

/-- RST (rule R184): its word; every register at its reset value, faulted or not, with memory and the
responses already sent as they were; STATUS then reads 0x0008. An RST word with a reserved bit set
raises IllField while FAULT is 0 and is discarded while it is 1. -/
def Obligations.RstAsSpecified : Prop :=
  encode .rst = 0x0300000000000000 ∧
  (∀ s : State,
    exec .rst s = .next { State.reset with
      mem := s.mem, input := s.input, pos := s.pos, port := s.port, received := s.received } ∧
    s.resetRegs.readReg .status = 0x0008) ∧
  (∀ (s : State) (w : Cmd) (rest : List HostMove), w.toNat / 2 ^ 56 = 0x03 →
    w ≠ 0x0300000000000000 → s.input = .command w :: rest →
    step s = .next (if s.fault then { s with input := rest, pos := s.pos + 1 }
      else { s with
              input := rest, pos := s.pos + 1
              fault := true, cause := 2, finfo := BitVec.ofNat 32 (w.toNat / 2 ^ 32) }))

/-! ### Accumulator and walker (spec/41_accumulator.md, spec/42_walker.md) -/

/-- ACC (rule R120): its word; AddrWrap with ADDR, BusError with the lowest unanswered address, SUM
unchanged on either; otherwise SUM gets the checksum of the range's bytes from the old SUM, and
nothing else changes. -/
def Obligations.AccAsSpecified : Prop :=
  encode .acc = 0x1000000000000000 ∧
  ∀ s : State, s.fault = false →
    (2 ^ 32 < s.addr.toNat + s.len.toNat →
      exec .acc s = .next { s with fault := true, cause := 5, finfo := s.addr }) ∧
    (∀ x : Nat, s.addr.toNat + s.len.toNat ≤ 2 ^ 32 →
      FirstUnanswered s.mem s.addr.toNat s.len.toNat x →
      exec .acc s = .next { s with fault := true, cause := 6, finfo := BitVec.ofNat 32 x }) ∧
    (∀ bs : List Byte, s.addr.toNat + s.len.toNat ≤ 2 ^ 32 → bs.length = s.len.toNat →
      HoldsBytes s.mem s.addr.toNat bs →
      exec .acc s = .next { s with sum := csum bs s.sum })

/-- WALK (rule R131): its word; SKIP gets OFF, REM gets SIZE, PEND gets none, and nothing else
changes. -/
def Obligations.WalkAsSpecified : Prop :=
  encode .walk = 0x1100000000000000 ∧
  ∀ s : State, s.fault = false →
    exec .walk s = .next { s with skip := s.off, rem := s.size, pend := none }

/-- SEG (rule R133): its word; AddrWrap on the whole segment; BusError at the lowest unanswered taken
byte only; otherwise the taken bytes pass through the pairing machine and SKIP and REM count down,
and nothing else changes. Only the taken bytes need to be populated. -/
def Obligations.SegAsSpecified : Prop :=
  encode .seg = 0x1200000000000000 ∧
  ∀ s : State, s.fault = false →
    let skipped := min s.skip.toNat s.len.toNat
    let taken := min s.rem.toNat (s.len.toNat - skipped)
    (2 ^ 32 < s.addr.toNat + s.len.toNat →
      exec .seg s = .next { s with fault := true, cause := 5, finfo := s.addr }) ∧
    (∀ x : Nat, s.addr.toNat + s.len.toNat ≤ 2 ^ 32 →
      FirstUnanswered s.mem (s.addr.toNat + skipped) taken x →
      exec .seg s = .next { s with fault := true, cause := 6, finfo := BitVec.ofNat 32 x }) ∧
    (∀ bs : List Byte, s.addr.toNat + s.len.toNat ≤ 2 ^ 32 → bs.length = taken →
      HoldsBytes s.mem (s.addr.toNat + skipped) bs →
      exec .seg s = .next { s with
        sum  := (bs.foldl consume ⟨s.sum, s.pend⟩).sum
        pend := (bs.foldl consume ⟨s.sum, s.pend⟩).pend
        skip := BitVec.ofNat 32 (s.skip.toNat - skipped)
        rem  := BitVec.ofNat 32 (s.rem.toNat - taken) })

/-- FIN (rule R135): its word; a pending byte is added as the high byte of a word and PEND becomes none;
with none pending nothing changes; SKIP and REM stay. -/
def Obligations.FinAsSpecified : Prop :=
  encode .fin = 0x1300000000000000 ∧
  (∀ s : State, s.fault = false → s.pend = none → exec .fin s = .next s) ∧
  (∀ (s : State) (h : Byte), s.fault = false → s.pend = some h →
    exec .fin s =
      .next { s with sum := ocadd s.sum (BitVec.ofNat 16 (h.toNat * 256)), pend := none })

/-! ### Pseudo-header and composers (spec/43_pseudo_header.md, spec/44_composers.md) -/

/-- PSH (rule R150): its word; SUM gets the checksum, from 0, of the pseudo-header of SRC, DST, ULEN and
PROTO, whatever it held, and nothing else changes. -/
def Obligations.PshAsSpecified : Prop :=
  encode .psh = 0x2000000000000000 ∧
  ∀ s : State, s.fault = false →
    exec .psh s = .next { s with sum := csum (pseudo s.srcBytes s.dstBytes s.ulen s.proto) 0 }

/-- In register terms the pseudo-header sum is the fold of the sixteen address halves, the two length
halves and the protocol number: the spec's inference in 43_pseudo_header.md section 1. -/
def Obligations.PseudoHeaderSumInRegisterHalves : Prop :=
  ∀ (s : State) (ulen : Word) (proto : Byte),
    (s.pseudoSum ulen proto).toNat =
      fold (([s.src0, s.src1, s.src2, s.src3, s.dst0, s.dst1, s.dst2, s.dst3, ulen].map
        fun v => v.toNat / 2 ^ 16 + v.toNat % 2 ^ 16).sum + proto.toNat)

/-- The address bytes come from the registers big-endian: byte k is bits
`[31-8*(k mod 4) : 24-8*(k mod 4)]` of register k div 4 (rule R33); and the pseudo-header lays out
source, destination, length most significant byte first, three zero bytes and the protocol number
(rule R151, whose length order, padding count and protocol width the spec marks as general
knowledge G3). -/
def Obligations.PseudoHeaderBytesAreBigEndian : Prop :=
  (∀ (s : State) (k : Nat), k < 16 →
    ∃ v w : Word, [s.src0, s.src1, s.src2, s.src3][k / 4]? = some v ∧
      [s.dst0, s.dst1, s.dst2, s.dst3][k / 4]? = some w ∧
      s.srcBytes[k]? = some (v.extractLsb' (24 - 8 * (k % 4)) 8) ∧
      s.dstBytes[k]? = some (w.extractLsb' (24 - 8 * (k % 4)) 8)) ∧
  (∀ (src dst : List Byte) (ulen : Word) (proto : Byte), src.length = 16 → dst.length = 16 →
    let p := pseudo src dst ulen proto
    p.length = 40 ∧ p.take 16 = src ∧ (p.drop 16).take 16 = dst ∧
    p.drop 32 = [ulen.extractLsb' 24 8, ulen.extractLsb' 16 8, ulen.extractLsb' 8 8,
      ulen.extractLsb' 0 8, 0, 0, 0, proto])

/-- The masked header: bytes c and c + 1, where they exist, are 0, and every other byte is as it was
(rule R161). -/
def Obligations.MaskedHeaderZeroesTheField : Prop :=
  ∀ (h : List Byte) (c : Nat), (masked h c).length = h.length ∧
    ∀ (j : Nat) (b : Byte), h[j]? = some b →
      (masked h c)[j]? = some (if j = c ∨ j = c + 1 then 0 else b)

/-- HDR (rule R160): its word; AddrWrap with HADDR, BusError with the lowest unanswered address (a field
byte included), SUM unchanged on either; otherwise SUM gets the checksum of the header with its field
as zero, from the old SUM, and nothing else changes. -/
def Obligations.HdrAsSpecified : Prop :=
  encode .hdr = 0x2100000000000000 ∧
  ∀ s : State, s.fault = false →
    (2 ^ 32 < s.haddr.toNat + s.hlen.toNat →
      exec .hdr s = .next { s with fault := true, cause := 5, finfo := s.haddr }) ∧
    (∀ x : Nat, s.haddr.toNat + s.hlen.toNat ≤ 2 ^ 32 →
      FirstUnanswered s.mem s.haddr.toNat s.hlen.toNat x →
      exec .hdr s = .next { s with fault := true, cause := 6, finfo := BitVec.ofNat 32 x }) ∧
    (∀ h : List Byte, s.haddr.toNat + s.hlen.toNat ≤ 2 ^ 32 → h.length = s.hlen.toNat →
      HoldsBytes s.mem s.haddr.toNat h →
      exec .hdr s = .next { s with sum := csum (masked h s.coff.toNat) s.sum })

/-- C4OPEN (rule R163): its word; SUM 0, PEND none, SKIP 0, REM gets SIZE, and nothing else changes. -/
def Obligations.C4openAsSpecified : Prop :=
  encode .c4open = 0x3000000000000000 ∧
  ∀ s : State, s.fault = false →
    exec .c4open s = .next { s with sum := 0, pend := none, skip := 0, rem := s.size }

/-- C6OPEN (rule R164): its word; IllValue with the low 32 bits when HLEN + SIZE does not fit the length
field; otherwise SUM gets the pseudo-header sum with that length and the protocol number 58 (which
the spec marks as general knowledge G2), PEND none, SKIP 0, REM SIZE, and nothing else changes. -/
def Obligations.C6openAsSpecified : Prop :=
  encode .c6open = 0x3100000000000000 ∧
  ∀ s : State, s.fault = false →
    (2 ^ 32 ≤ s.hlen.toNat + s.size.toNat →
      exec .c6open s = .next { s with
        fault := true, cause := 4, finfo := BitVec.ofNat 32 (s.hlen.toNat + s.size.toNat) }) ∧
    (∀ u : Word, u.toNat = s.hlen.toNat + s.size.toNat →
      exec .c6open s = .next { s with
        sum := csum (pseudo s.srcBytes s.dstBytes u 58) 0, pend := none, skip := 0, rem := s.size })

/-- CCLOSE (rule R166): its word; the header's faults leave SUM and PEND alone; otherwise the walk is
finished and the masked header added, as one command, nothing else changes, and CSUM then reads the
complement of the sum. -/
def Obligations.CcloseAsSpecified : Prop :=
  encode .cclose = 0x3200000000000000 ∧
  ∀ s : State, s.fault = false →
    (2 ^ 32 < s.haddr.toNat + s.hlen.toNat →
      exec .cclose s = .next { s with fault := true, cause := 5, finfo := s.haddr }) ∧
    (∀ x : Nat, s.haddr.toNat + s.hlen.toNat ≤ 2 ^ 32 →
      FirstUnanswered s.mem s.haddr.toNat s.hlen.toNat x →
      exec .cclose s = .next { s with fault := true, cause := 6, finfo := BitVec.ofNat 32 x }) ∧
    (∀ h : List Byte, s.haddr.toNat + s.hlen.toNat ≤ 2 ^ 32 → h.length = s.hlen.toNat →
      HoldsBytes s.mem s.haddr.toNat h →
      ∃ t : State, exec .cclose s = .next t ∧
        t = { s with
              sum := csum (masked h s.coff.toNat) (finish ⟨s.sum, s.pend⟩).sum, pend := none } ∧
        t.readReg .csum = (~~~ csum (masked h s.coff.toNat) (finish ⟨s.sum, s.pend⟩).sum).setWidth 32)

/-- CVERIFY (rule R169): its word; the header's faults leave SUM and PEND alone; otherwise the walk is
finished and the header added as it stands, nothing else changes, and STATUS.VOK reads 1, and CSUM 0,
exactly when the new SUM is 0xFFFF. -/
def Obligations.CverifyAsSpecified : Prop :=
  encode .cverify = 0x3300000000000000 ∧
  ∀ s : State, s.fault = false →
    (2 ^ 32 < s.haddr.toNat + s.hlen.toNat →
      exec .cverify s = .next { s with fault := true, cause := 5, finfo := s.haddr }) ∧
    (∀ x : Nat, s.haddr.toNat + s.hlen.toNat ≤ 2 ^ 32 →
      FirstUnanswered s.mem s.haddr.toNat s.hlen.toNat x →
      exec .cverify s = .next { s with fault := true, cause := 6, finfo := BitVec.ofNat 32 x }) ∧
    (∀ h : List Byte, s.haddr.toNat + s.hlen.toNat ≤ 2 ^ 32 → h.length = s.hlen.toNat →
      HoldsBytes s.mem s.haddr.toNat h →
      ∃ t : State, exec .cverify s = .next t ∧
        t = { s with sum := csum h (finish ⟨s.sum, s.pend⟩).sum, pend := none } ∧
        ((t.readReg .status).getLsbD 1 = true ↔ csum h (finish ⟨s.sum, s.pend⟩).sum = 0xFFFF) ∧
        (t.readReg .csum = 0 ↔ csum h (finish ⟨s.sum, s.pend⟩).sum = 0xFFFF))

/-! ### Memory, faults and the machine as a whole -/

/-- MemRead (rule R63): the wrap is checked on the whole range, an empty range reads nothing, the lowest
unanswered address is reported, and otherwise the bytes come lowest address first. -/
def Obligations.MemReadAsSpecified : Prop :=
  ∀ (m : Memory) (a n : Nat), a < 2 ^ 32 → n < 2 ^ 32 →
    (2 ^ 32 < a + n → memRead m a n = .error ⟨.addrWrap, BitVec.ofNat 32 a⟩) ∧
    (n = 0 → memRead m a n = .ok []) ∧
    (∀ x : Nat, a + n ≤ 2 ^ 32 → FirstUnanswered m a n x →
      memRead m a n = .error ⟨.busError, BitVec.ofNat 32 x⟩) ∧
    (∀ bs : List Byte, a + n ≤ 2 ^ 32 → bs.length = n → HoldsBytes m a bs →
      memRead m a n = .ok bs)

/-- Faults are precise: a command that leaves FAULT set where it was clear has changed nothing but
FAULT, CAUSE and FINFO, and has sent no response (rule R200). -/
def Obligations.FaultEntryChangesOnlyTheLatch : Prop :=
  ∀ (s t : State) (w : Cmd) (rest : List HostMove), s.fault = false →
    s.input = .command w :: rest → step s = .next t → t.fault = true →
    t = { s with
          input := rest, pos := s.pos + 1
          fault := true, cause := t.cause, finfo := t.finfo }

/-- While FAULT is 1 a well-formed RST resets the registers, a well-formed GET of an assigned index
answers, and every other word is discarded with no effect and no response (rule R202). -/
def Obligations.FaultedEngineObeysOnlyGetAndRst : Prop :=
  ∀ (s : State) (w : Cmd) (rest : List HostMove), s.fault = true → s.input = .command w :: rest →
    let s1 : State := { s with input := rest, pos := s.pos + 1 }
    let op := w.toNat / 2 ^ 56
    let r := w.toNat / 2 ^ 51 % 2 ^ 5
    let z := w.toNat / 2 ^ 32 % 2 ^ 19
    let imm := w.toNat % 2 ^ 32
    if op = 0x03 ∧ r = 0 ∧ z = 0 ∧ imm = 0 then
      step s = .next { State.reset with
        mem := s.mem, input := rest, pos := s.pos + 1, port := s.port, received := s.received }
    else if op = 0x02 ∧ z = 0 ∧ imm = 0 ∧ r ≤ 23 then
      ∃ q : Reg, q.index.toNat = r ∧ step s = .next { s1 with
        port := s.port ++ [if q = .sum ∨ q = .csum then ⟨false, 0⟩ else ⟨true, s.readReg q⟩] }
    else step s = .next s1

/-- The faulted state is left only by the RST command or the reset input, and then every register is at
its reset value (rule R203). -/
def Obligations.OnlyResetLeavesTheFaultedState : Prop :=
  ∀ s t : State, s.fault = true → step s = .next t → t.fault = false →
    ((∃ rest, s.input = .command 0x0300000000000000 :: rest) ∨ (∃ rest, s.input = .reset :: rest)) ∧
    t = { State.reset with
          mem := t.mem, input := t.input, pos := t.pos, port := t.port, received := t.received }

/-- Which command writes what: outside the matrix of 10_state.md section 10 nothing changes. SET of a
register leaves every other register, and only CSUM, STATUS and FINFO, which follow SUM and the latch,
may read otherwise after it. A command that faults writes the latch and nothing else, and one that
does not, RST apart, leaves the latch. Memory reads the same at every address after every command. -/
def Obligations.CommandsWriteOnlyTheirRegisters : Prop :=
  ∀ (i : Instr) (s t : State), exec i s = .next t →
    SameSurroundings s t ∧
    ((i = .nop ∨ i = .walk ∨ (∃ r, i = .get r) ∨ (∃ r imm, i = .set r imm ∧ r ≠ .sum)) →
      t.sum = s.sum) ∧
    ((i = .nop ∨ i = .acc ∨ i = .psh ∨ i = .hdr ∨ (∃ r, i = .get r) ∨ (∃ r imm, i = .set r imm)) →
      t.pend = s.pend) ∧
    ((i ≠ .rst ∧ i ≠ .walk ∧ i ≠ .seg ∧ i ≠ .c4open ∧ i ≠ .c6open) → SameSelection s t) ∧
    ((i ≠ .rst ∧ ∀ r imm, i ≠ .set r imm) → SameOperands s t) ∧
    ((i = .nop ∨ i = .walk ∨ i = .fin ∨ i = .psh ∨ i = .c4open ∨ (∃ r, i = .get r)) →
      SameLatch s t) ∧
    ((∀ r, i ≠ .get r) → t.port = s.port) ∧
    (∀ r imm, i = .set r imm →
      ∀ q : Reg, q ≠ r → q ∉ [Reg.csum, .status, .finfo] → t.readReg q = s.readReg q) ∧
    (s.fault = false → t.fault = true →
      t = { s with fault := true, cause := t.cause, finfo := t.finfo }) ∧
    (i ≠ .rst → t.fault = s.fault → SameLatch s t)

/-- A step that takes a command word, legal or not, faulted or not, takes exactly that word from the
host's list, advances the position by exactly 1, and leaves every byte of memory and every response
already taken alone (rules R21, R62). -/
def Obligations.EveryCommandAdvancesByOneAndStoresNothing : Prop :=
  ∀ (s t : State) (w : Cmd) (rest : List HostMove), s.input = .command w :: rest →
    step s = .next t →
    t.input = rest ∧ t.pos = s.pos + 1 ∧ t.received = s.received ∧
    ∀ a : Nat, Memory.read t.mem a = Memory.read s.mem a

/-- The step is total: every state has a next state, whatever word or other move comes next (rule
R8). -/
def Obligations.EveryStateHasANextState : Prop :=
  ∀ s : State, ∃ t : State, step s = .next t

/-- Only a GET that decodes sends a response, and it sends exactly one, after those already on the port;
no other command word sends any (rule R183). -/
def Obligations.OnlyGetRespondsAndOnlyOnce : Prop :=
  ∀ (s t : State) (w : Cmd) (rest : List HostMove), s.input = .command w :: rest →
    step s = .next t →
    (∀ r : Reg, decode w = .ok (.get r) → t.port = s.port ++
      [if s.fault = true ∧ (r = .sum ∨ r = .csum) then ⟨false, 0⟩ else ⟨true, s.readReg r⟩]) ∧
    ((∀ r : Reg, decode w ≠ .ok (.get r)) → t.port = s.port)

/-- Every step, from every state, keeps the invariant: the memory's canonical form, and a fault latch
that is clear with CAUSE and FINFO 0 or set with one of the six codes (10_state.md section 7 item 5,
60_exceptions.md section 1). -/
def Obligations.EveryStepKeepsTheInvariant : Prop :=
  ∀ s t : State, s.Inv → step s = .next t → t.Inv

/-- The invariant holds at reset. -/
def Obligations.InvariantHoldsAtReset : Prop := State.reset.Inv

/-- SEG never increases SKIP or REM, faulted or not (10_state.md section 7 item 3). -/
def Obligations.SegNeverIncreasesTheCounters : Prop :=
  ∀ s t : State, exec .seg s = .next t →
    t.skip.toNat ≤ s.skip.toNat ∧ t.rem.toNat ≤ s.rem.toNat

/-- A non-zero SUM stays non-zero under every command but SET, PSH, C4OPEN, C6OPEN and RST (10_state.md
section 7 item 4). -/
def Obligations.NonZeroSumNeverReturnsToZero : Prop :=
  ∀ (i : Instr) (s t : State), s.sum ≠ 0 →
    (∀ r imm, i ≠ .set r imm) → i ≠ .psh → i ≠ .c4open → i ≠ .c6open → i ≠ .rst →
    exec i s = .next t → t.sum ≠ 0

/-- A command depends on the bytes it reads and on no others: if another memory agrees on the addresses
of the table of 20_memory.md section 9, the command does the same there (rules R68, R73). -/
def Obligations.CommandsDependOnlyOnTheBytesTheyRead : Prop :=
  ∀ (i : Instr) (s t : State) (m : Memory),
    (∀ a : Nat, Reads i s a → Memory.read m a = Memory.read s.mem a) →
    exec i s = .next t → exec i { s with mem := m } = .next { t with mem := m }

/-- HDR and CCLOSE do not depend on what the checksum field in memory holds, as long as it is populated
(44_composers.md section 1 and HDR corner cases). -/
def Obligations.HeaderFieldBytesAreIgnored : Prop :=
  ∀ (i : Instr) (s t : State) (m : Memory), i = .hdr ∨ i = .cclose →
    (∀ a : Nat, a ≠ s.haddr.toNat + s.coff.toNat → a ≠ s.haddr.toNat + s.coff.toNat + 1 →
      Memory.read m a = Memory.read s.mem a) →
    (∀ a : Nat, (Memory.read m a).isSome = (Memory.read s.mem a).isSome) →
    exec i s = .next t → exec i { s with mem := m } = .next { t with mem := m }

/-! ### What the document's contracts compute -/

/-- The scalar contract and its chaining: one ACC after its three SETs leaves the checksum of the bytes
from the initial value (41_accumulator.md, 'The document's scalar contract is ACC'), and two ACCs in a
row leave the checksum of the concatenation when the first range is even. -/
def Obligations.ScalarContract : Prop :=
  ∀ (s : State) (a n b k : Word) (init : Half) (xs ys : List Byte), s.fault = false →
    a.toNat + n.toNat ≤ 2 ^ 32 → xs.length = n.toNat → HoldsBytes s.mem a.toNat xs →
    b.toNat + k.toNat ≤ 2 ^ 32 → ys.length = k.toNat → HoldsBytes s.mem b.toNat ys →
    execAll [.set .sum (init.setWidth 32), .set .addr a, .set .len n, .acc] s =
      .next { s with addr := a, len := n, sum := csum xs init } ∧
    (n.toNat % 2 = 0 →
      execAll [.set .sum (init.setWidth 32), .set .addr a, .set .len n, .acc,
        .set .addr b, .set .len k, .acc] s =
        .next { s with addr := b, len := k, sum := csum (xs ++ ys) init })

/-- Segmentation invariance with clamping: a walk over any segments leaves the checksum of the selected
bytes of their concatenation, whatever the cut, the number and the addresses of the segments; PEND is
none, and SKIP and REM show what of the selection lay past the end (42_walker.md section 2). -/
def Obligations.WalkSumsTheSelectionHoweverItIsCut : Prop :=
  ∀ (s : State) (segs : List (Word × Word)) (stream : List Byte), s.fault = false →
    streamOf s.mem segs = .ok stream →
    let lo := min s.off.toNat stream.length
    let hi := min (s.off.toNat + s.size.toNat) stream.length
    ∃ t : State, execAll ([.walk] ++ feed segs ++ [.fin]) s = .next t ∧
      t.sum = csum ((stream.take hi).drop lo) s.sum ∧ t.pend = none ∧
      t.skip.toNat = s.off.toNat - lo ∧ t.rem.toNat = s.size.toNat - (hi - lo) ∧
      t.fault = false ∧ t.port = s.port

/-- Empty-range identity: with SIZE 0 a walk over any segments that do not wrap, populated or not, leaves
SUM as it was and raises nothing (42_walker.md section 2). -/
def Obligations.EmptySelectionLeavesTheSum : Prop :=
  ∀ (s : State) (segs : List (Word × Word)), s.fault = false → s.size = 0 →
    (∀ g ∈ segs, g.1.toNat + g.2.toNat ≤ 2 ^ 32) →
    ∃ t : State, execAll ([.walk] ++ feed segs ++ [.fin]) s = .next t ∧
      t.sum = s.sum ∧ t.pend = none ∧ t.rem = 0 ∧ t.fault = false

/-- The ICMPv4 contract: header, payload and GET CSUM answer the complement of the masked header's sum
on the payload's sum (44_composers.md, 'The ICMPv4 contract'). -/
def Obligations.Icmp4Contract : Prop :=
  ∀ (s : State) (a n size : Word) (h payload : List Byte) (segs : List (Word × Word)),
    s.fault = false → a.toNat + n.toNat ≤ 2 ^ 32 → h.length = n.toNat →
    HoldsBytes s.mem a.toNat h → streamOf s.mem segs = .ok payload →
    size.toNat = payload.length →
    ∃ t : State,
      execAll ([.set .haddr a, .set .hlen n, .set .size size, .c4open] ++ feed segs ++
        [.cclose, .get .csum]) s = .next t ∧
      t.port = s.port ++
        [⟨true, (~~~ csum (masked h s.coff.toNat) (csum payload 0)).setWidth 32⟩] ∧
      SameLatch s t ∧ ∀ x : Nat, Memory.read t.mem x = Memory.read s.mem x

/-- The ICMPv6 contract: as for ICMPv4, on the pseudo-header's sum with the length header plus payload
and the protocol number 58 (44_composers.md, 'The ICMPv6 contract'; 58 is general knowledge G2). -/
def Obligations.Icmp6Contract : Prop :=
  ∀ (s : State) (a n size u : Word) (h payload : List Byte) (segs : List (Word × Word)),
    s.fault = false → a.toNat + n.toNat ≤ 2 ^ 32 → h.length = n.toNat →
    HoldsBytes s.mem a.toNat h → streamOf s.mem segs = .ok payload →
    size.toNat = payload.length → u.toNat = n.toNat + size.toNat →
    ∃ t : State,
      execAll ([.set .haddr a, .set .hlen n, .set .size size, .c6open] ++ feed segs ++
        [.cclose, .get .csum]) s = .next t ∧
      t.port = s.port ++
        [⟨true, (~~~ csum (masked h s.coff.toNat)
          (csum payload (csum (pseudo s.srcBytes s.dstBytes u 58) 0))).setWidth 32⟩] ∧
      SameLatch s t ∧ ∀ x : Nat, Memory.read t.mem x = Memory.read s.mem x

/-- The order of composition does not matter: header first and then a walk over the payload leaves the
same SUM as the payload first and then the header (44_composers.md, 'Order independence'). -/
def Obligations.CompositionOrderDoesNotMatter : Prop :=
  ∀ (s : State) (h payload : List Byte) (segs : List (Word × Word)), s.fault = false →
    s.haddr.toNat + s.hlen.toNat ≤ 2 ^ 32 → h.length = s.hlen.toNat →
    HoldsBytes s.mem s.haddr.toNat h → streamOf s.mem segs = .ok payload →
    s.size.toNat = payload.length →
    ∃ t u : State,
      execAll ([.c4open] ++ feed segs ++ [.cclose]) s = .next t ∧
      execAll ([.set .sum 0, .hdr, .set .off 0, .walk] ++ feed segs ++ [.fin]) s = .next u ∧
      t.sum = u.sum

/-- The round trip: CCLOSE, the host storing CSUM big-endian in an even-placed field inside the header,
then CVERIFY from the same walk state, leaves SUM = 0xFFFF and VOK = 1 (44_composers.md, 'Storing the
result, and the round trip'). -/
def Obligations.StoredChecksumVerifies : Prop :=
  ∀ (s t : State) (h : List Byte) (m : Memory), s.fault = false →
    s.haddr.toNat + s.hlen.toNat ≤ 2 ^ 32 → h.length = s.hlen.toNat →
    HoldsBytes s.mem s.haddr.toNat h →
    s.coff.toNat % 2 = 0 → s.coff.toNat + 1 < s.hlen.toNat →
    exec .cclose s = .next t →
    (∀ a : Nat, Memory.read m a =
      if a = s.haddr.toNat + s.coff.toNat then some (t.csumView.extractLsb' 8 8)
      else if a = s.haddr.toNat + s.coff.toNat + 1 then some (t.csumView.extractLsb' 0 8)
      else Memory.read s.mem a) →
    ∃ u : State, exec .cverify { s with mem := m } = .next u ∧ u.sum = 0xFFFF ∧ u.vok = true

/-- The two verification methods of rule R170. With `F` the value stored in an even-placed field inside
the header, CVERIFY leaves `ocadd(S0, F)`, `S0` being what CCLOSE leaves in SUM from the same state,
and reports VOK exactly when `F` equals the CSUM that CCLOSE leaves, or in the one case in which the
methods differ, `S0 = F = 0xFFFF`; and the arithmetic behind it. -/
def Obligations.VerificationMethodsDifferInOneCase : Prop :=
  (∀ (s : State) (h : List Byte) (hi lo : Byte), s.fault = false →
    s.haddr.toNat + s.hlen.toNat ≤ 2 ^ 32 → h.length = s.hlen.toNat →
    HoldsBytes s.mem s.haddr.toNat h →
    s.coff.toNat % 2 = 0 → h[s.coff.toNat]? = some hi → h[s.coff.toNat + 1]? = some lo →
    ∃ t u : State, exec .cclose s = .next t ∧ exec .cverify s = .next u ∧
      u.sum = ocadd t.sum (word hi lo) ∧
      (u.vok = true ↔ word hi lo = t.csumView ∨ t.sum = 0xFFFF ∧ word hi lo = 0xFFFF)) ∧
  (∀ S0 F : Half, ocadd S0 F = 0xFFFF ↔ (F = ~~~ S0 ∨ S0 = 0xFFFF ∧ F = 0xFFFF))

/-! ### Reset and the host's other moves (spec/70_reset_and_hazards.md, spec/60_exceptions.md) -/

/-- The reset values of rule R43, every register and both views (COFF's 2 is the spec's value, which it
marks as general knowledge G1). -/
def Obligations.ResetStateAsListed : Prop :=
  let s := State.reset
  s.sum = 0 ∧ s.pend = none ∧ s.skip = 0 ∧ s.rem = 0 ∧ s.addr = 0 ∧ s.len = 0 ∧ s.off = 0 ∧
  s.size = 0 ∧ s.haddr = 0 ∧ s.hlen = 0 ∧ s.coff = 2 ∧ s.proto = 0 ∧ s.ulen = 0 ∧
  s.src0 = 0 ∧ s.src1 = 0 ∧ s.src2 = 0 ∧ s.src3 = 0 ∧
  s.dst0 = 0 ∧ s.dst1 = 0 ∧ s.dst2 = 0 ∧ s.dst3 = 0 ∧
  s.fault = false ∧ s.cause = 0 ∧ s.finfo = 0 ∧
  s.readReg .csum = 0xFFFF ∧ s.readReg .status = 0x0008

/-- The reset input puts every register at its reset value and empties the response port; it has the
same effect on the registers as RST, which leaves the port alone (rule R220). -/
def Obligations.ResetInputRestoresTheResetState : Prop :=
  ∀ (s : State) (rest : List HostMove),
    (s.input = .reset :: rest → step s = .next { State.reset with
      mem := s.mem, input := rest, pos := s.pos, port := [], received := s.received }) ∧
    exec .rst s = .next { State.reset with
      mem := s.mem, input := s.input, pos := s.pos, port := s.port, received := s.received }

/-- Every command may be issued right after reset: none faults, PSH leaves SUM 0 and C6OPEN leaves 58
(70_reset_and_hazards.md section 1). -/
def Obligations.EveryCommandIsSafeAfterReset : Prop :=
  ∀ i : Instr, i.wf = true →
    ∃ t : State, exec i State.reset = .next t ∧ t.fault = false ∧
      (i = .psh → t.sum = 0) ∧ (i = .c6open → t.sum = 58)

/-- A change of memory by the host is seen from then on at its address, and at no other, and changes no
register (rule R69; the model's form of the move is assumption log 3). The premise is the memory part
of the invariant. -/
def Obligations.HostMemoryChangeIsSeen : Prop :=
  ∀ (s : State) (a : Word) (v : Option Byte) (rest : List HostMove), Memory.wf s.mem = true →
    s.input = .memory a v :: rest →
    ∃ m : Memory, step s = .next { s with input := rest, mem := m } ∧
      ∀ x : Nat, Memory.read m x = if x = a.toNat then v else Memory.read s.mem x

/-- With no move of the host left the engine is idle and keeps all its state (rule R208), and the host
takes responses in the order they were sent (rule R183). -/
def Obligations.IdleKeepsStateAndResponsesLeaveInOrder : Prop :=
  (∀ s : State, s.input = [] → step s = .next s) ∧
  (∀ (s : State) (rest : List HostMove) (r : Response) (later : List Response),
    s.input = .takeResponse :: rest → s.port = r :: later →
    step s = .next { s with input := rest, port := later, received := s.received ++ [r] }) ∧
  (∀ (s : State) (rest : List HostMove), s.input = .takeResponse :: rest → s.port = [] →
    step s = .next { s with input := rest })
end

