-- ==== Sys2Proof/Laws/Memory.lean ====
section
/-! SUPPORT. The memory: its canonical form is kept by every operation, and a read after a change. -/

namespace Sys2Proof.Machine

theorem Memory.wfFrom_nil (lo : Nat) : Memory.wfFrom lo [] = true := rfl

theorem Memory.wfFrom_cons {lo k : Nat} {b : Byte} {m : Memory} :
    Memory.wfFrom lo ((k, b) :: m) = true ↔
      lo ≤ k ∧ k < Config.addressSpace ∧ Memory.wfFrom (k + 1) m = true := by
  simp [Memory.wfFrom, and_assoc]

/-- A canonical list from `lo` up is one from any lower bound too. -/
theorem Memory.wfFrom_le {lo lo' : Nat} (h : lo' ≤ lo) {m : Memory}
    (hm : Memory.wfFrom lo m = true) : Memory.wfFrom lo' m = true := by
  cases m with
  | nil => rfl
  | cons c m =>
    obtain ⟨k, b⟩ := c
    rw [Memory.wfFrom_cons] at hm ⊢
    exact ⟨by omega, hm.2⟩

/-- A canonical list from `lo` up holds nothing below `lo`. -/
theorem Memory.read_below {m : Memory} : ∀ {lo a : Nat}, Memory.wfFrom lo m = true → a < lo →
    Memory.read m a = none := by
  induction m with
  | nil => intros; rfl
  | cons c m ih =>
    obtain ⟨k, b⟩ := c
    intro lo a hm ha
    rw [Memory.wfFrom_cons] at hm
    simp only [Memory.read, show k ≠ a by omega, if_false]
    exact ih hm.2.2 (by omega)

/-- A canonical memory answers no address outside the address space. -/
theorem Memory.read_outside {m : Memory} : ∀ {lo a : Nat}, Memory.wfFrom lo m = true →
    Config.addressSpace ≤ a → Memory.read m a = none := by
  induction m with
  | nil => intros; rfl
  | cons c m ih =>
    obtain ⟨k, b⟩ := c
    intro lo a hm ha
    rw [Memory.wfFrom_cons] at hm
    simp only [Memory.read, show k ≠ a by omega, if_false]
    exact ih hm.2.2 ha

theorem Memory.put_wfFrom {m : Memory} : ∀ {lo a : Nat} {v : Option Byte},
    Memory.wfFrom lo m = true → lo ≤ a → a < Config.addressSpace →
    Memory.wfFrom lo (Memory.put m a v) = true := by
  induction m with
  | nil =>
    intro lo a v _ h1 h2
    cases v with
    | none => rfl
    | some b => exact Memory.wfFrom_cons.mpr ⟨h1, h2, rfl⟩
  | cons c m ih =>
    obtain ⟨k, b⟩ := c
    intro lo a v hm h1 h2
    have hm' := Memory.wfFrom_cons.mp hm
    unfold Memory.put
    split_ifs with hlt heq
    · cases v with
      | none => exact hm
      | some b' =>
        exact Memory.wfFrom_cons.mpr ⟨h1, h2, Memory.wfFrom_cons.mpr ⟨hlt, hm'.2⟩⟩
    · cases v with
      | none => exact Memory.wfFrom_le (by omega) hm'.2.2
      | some b' => exact Memory.wfFrom_cons.mpr hm'
    · exact Memory.wfFrom_cons.mpr ⟨hm'.1, hm'.2.1, ih hm'.2.2 (by omega) h2⟩

/-- The one operation that changes memory keeps its canonical form. -/
theorem Memory.put_wf {m : Memory} {a : Nat} {v : Option Byte} (hm : Memory.wf m = true)
    (ha : a < Config.addressSpace) : Memory.wf (Memory.put m a v) = true :=
  Memory.put_wfFrom hm (Nat.zero_le a) ha

theorem Memory.read_put_wfFrom {m : Memory} : ∀ {lo a : Nat} {v : Option Byte} (x : Nat),
    Memory.wfFrom lo m = true →
    Memory.read (Memory.put m a v) x = if x = a then v else Memory.read m x := by
  induction m with
  | nil =>
    intro lo a v x _
    cases v with
    | none => simp [Memory.put, Memory.read]
    | some b => simp [Memory.put, Memory.read, eq_comm]
  | cons c m ih =>
    obtain ⟨k, b⟩ := c
    intro lo a v x hm
    have hm' := Memory.wfFrom_cons.mp hm
    unfold Memory.put
    by_cases hxa : x = a
    · subst hxa
      simp only [if_true]
      split_ifs with hlt heq
      · cases v with
        | none =>
          exact Memory.read_below (lo := k) (Memory.wfFrom_cons.mpr ⟨le_refl k, hm'.2⟩) hlt
        | some b' => simp [Memory.read]
      · subst heq
        cases v with
        | none => exact Memory.read_below hm'.2.2 (by omega)
        | some b' => simp [Memory.read]
      · simp [Memory.read, show k ≠ x by omega, ih (a := x) (v := v) x hm'.2.2]
    · simp only [if_neg hxa]
      split_ifs with hlt heq
      · cases v with
        | none => rfl
        | some b' => simp [Memory.read, Ne.symm hxa]
      · subst heq
        cases v <;> simp [Memory.read, Ne.symm hxa]
      · simp [Memory.read, ih (a := a) (v := v) x hm'.2.2, hxa]

/-- A read after a change: the new answer at the changed address, the old one at every other. -/
theorem Memory.read_put {m : Memory} {a : Nat} {v : Option Byte} (x : Nat)
    (hm : Memory.wf m = true) :
    Memory.read (Memory.put m a v) x = if x = a then v else Memory.read m x :=
  Memory.read_put_wfFrom x hm

theorem reset_memory_wf : Memory.wf State.reset.mem = true := rfl

end Sys2Proof.Machine
end

