-- ==== Sys2Proof/Laws/State.lean ====
section
/-! SUPPORT. One lemma per field per named update of State, so that no proof unfolds an update. -/

namespace Sys2Proof.Machine

section
variable (s : State) (v : Violation)
@[simp] theorem raise_sum : (s.raise v).sum = s.sum := rfl
@[simp] theorem raise_pend : (s.raise v).pend = s.pend := rfl
@[simp] theorem raise_skip : (s.raise v).skip = s.skip := rfl
@[simp] theorem raise_rem : (s.raise v).rem = s.rem := rfl
@[simp] theorem raise_addr : (s.raise v).addr = s.addr := rfl
@[simp] theorem raise_len : (s.raise v).len = s.len := rfl
@[simp] theorem raise_off : (s.raise v).off = s.off := rfl
@[simp] theorem raise_size : (s.raise v).size = s.size := rfl
@[simp] theorem raise_haddr : (s.raise v).haddr = s.haddr := rfl
@[simp] theorem raise_hlen : (s.raise v).hlen = s.hlen := rfl
@[simp] theorem raise_coff : (s.raise v).coff = s.coff := rfl
@[simp] theorem raise_proto : (s.raise v).proto = s.proto := rfl
@[simp] theorem raise_ulen : (s.raise v).ulen = s.ulen := rfl
@[simp] theorem raise_src0 : (s.raise v).src0 = s.src0 := rfl
@[simp] theorem raise_src1 : (s.raise v).src1 = s.src1 := rfl
@[simp] theorem raise_src2 : (s.raise v).src2 = s.src2 := rfl
@[simp] theorem raise_src3 : (s.raise v).src3 = s.src3 := rfl
@[simp] theorem raise_dst0 : (s.raise v).dst0 = s.dst0 := rfl
@[simp] theorem raise_dst1 : (s.raise v).dst1 = s.dst1 := rfl
@[simp] theorem raise_dst2 : (s.raise v).dst2 = s.dst2 := rfl
@[simp] theorem raise_dst3 : (s.raise v).dst3 = s.dst3 := rfl
@[simp] theorem raise_fault : (s.raise v).fault = true := rfl
@[simp] theorem raise_cause : (s.raise v).cause = v.cause.code := rfl
@[simp] theorem raise_finfo : (s.raise v).finfo = v.info := rfl
@[simp] theorem raise_mem : (s.raise v).mem = s.mem := rfl
@[simp] theorem raise_input : (s.raise v).input = s.input := rfl
@[simp] theorem raise_pos : (s.raise v).pos = s.pos := rfl
@[simp] theorem raise_port : (s.raise v).port = s.port := rfl
@[simp] theorem raise_received : (s.raise v).received = s.received := rfl
end

section
variable (s : State) (v : Half)
@[simp] theorem withSum_sum : (s.withSum v).sum = v := rfl
@[simp] theorem withSum_pend : (s.withSum v).pend = s.pend := rfl
@[simp] theorem withSum_skip : (s.withSum v).skip = s.skip := rfl
@[simp] theorem withSum_rem : (s.withSum v).rem = s.rem := rfl
@[simp] theorem withSum_addr : (s.withSum v).addr = s.addr := rfl
@[simp] theorem withSum_len : (s.withSum v).len = s.len := rfl
@[simp] theorem withSum_off : (s.withSum v).off = s.off := rfl
@[simp] theorem withSum_size : (s.withSum v).size = s.size := rfl
@[simp] theorem withSum_haddr : (s.withSum v).haddr = s.haddr := rfl
@[simp] theorem withSum_hlen : (s.withSum v).hlen = s.hlen := rfl
@[simp] theorem withSum_coff : (s.withSum v).coff = s.coff := rfl
@[simp] theorem withSum_proto : (s.withSum v).proto = s.proto := rfl
@[simp] theorem withSum_ulen : (s.withSum v).ulen = s.ulen := rfl
@[simp] theorem withSum_src0 : (s.withSum v).src0 = s.src0 := rfl
@[simp] theorem withSum_src1 : (s.withSum v).src1 = s.src1 := rfl
@[simp] theorem withSum_src2 : (s.withSum v).src2 = s.src2 := rfl
@[simp] theorem withSum_src3 : (s.withSum v).src3 = s.src3 := rfl
@[simp] theorem withSum_dst0 : (s.withSum v).dst0 = s.dst0 := rfl
@[simp] theorem withSum_dst1 : (s.withSum v).dst1 = s.dst1 := rfl
@[simp] theorem withSum_dst2 : (s.withSum v).dst2 = s.dst2 := rfl
@[simp] theorem withSum_dst3 : (s.withSum v).dst3 = s.dst3 := rfl
@[simp] theorem withSum_fault : (s.withSum v).fault = s.fault := rfl
@[simp] theorem withSum_cause : (s.withSum v).cause = s.cause := rfl
@[simp] theorem withSum_finfo : (s.withSum v).finfo = s.finfo := rfl
@[simp] theorem withSum_mem : (s.withSum v).mem = s.mem := rfl
@[simp] theorem withSum_input : (s.withSum v).input = s.input := rfl
@[simp] theorem withSum_pos : (s.withSum v).pos = s.pos := rfl
@[simp] theorem withSum_port : (s.withSum v).port = s.port := rfl
@[simp] theorem withSum_received : (s.withSum v).received = s.received := rfl
end

section
variable (s : State) (st : Pairing)
@[simp] theorem withPairing_sum : (s.withPairing st).sum = st.sum := rfl
@[simp] theorem withPairing_pend : (s.withPairing st).pend = st.pend := rfl
@[simp] theorem withPairing_skip : (s.withPairing st).skip = s.skip := rfl
@[simp] theorem withPairing_rem : (s.withPairing st).rem = s.rem := rfl
@[simp] theorem withPairing_addr : (s.withPairing st).addr = s.addr := rfl
@[simp] theorem withPairing_len : (s.withPairing st).len = s.len := rfl
@[simp] theorem withPairing_off : (s.withPairing st).off = s.off := rfl
@[simp] theorem withPairing_size : (s.withPairing st).size = s.size := rfl
@[simp] theorem withPairing_haddr : (s.withPairing st).haddr = s.haddr := rfl
@[simp] theorem withPairing_hlen : (s.withPairing st).hlen = s.hlen := rfl
@[simp] theorem withPairing_coff : (s.withPairing st).coff = s.coff := rfl
@[simp] theorem withPairing_proto : (s.withPairing st).proto = s.proto := rfl
@[simp] theorem withPairing_ulen : (s.withPairing st).ulen = s.ulen := rfl
@[simp] theorem withPairing_src0 : (s.withPairing st).src0 = s.src0 := rfl
@[simp] theorem withPairing_src1 : (s.withPairing st).src1 = s.src1 := rfl
@[simp] theorem withPairing_src2 : (s.withPairing st).src2 = s.src2 := rfl
@[simp] theorem withPairing_src3 : (s.withPairing st).src3 = s.src3 := rfl
@[simp] theorem withPairing_dst0 : (s.withPairing st).dst0 = s.dst0 := rfl
@[simp] theorem withPairing_dst1 : (s.withPairing st).dst1 = s.dst1 := rfl
@[simp] theorem withPairing_dst2 : (s.withPairing st).dst2 = s.dst2 := rfl
@[simp] theorem withPairing_dst3 : (s.withPairing st).dst3 = s.dst3 := rfl
@[simp] theorem withPairing_fault : (s.withPairing st).fault = s.fault := rfl
@[simp] theorem withPairing_cause : (s.withPairing st).cause = s.cause := rfl
@[simp] theorem withPairing_finfo : (s.withPairing st).finfo = s.finfo := rfl
@[simp] theorem withPairing_mem : (s.withPairing st).mem = s.mem := rfl
@[simp] theorem withPairing_input : (s.withPairing st).input = s.input := rfl
@[simp] theorem withPairing_pos : (s.withPairing st).pos = s.pos := rfl
@[simp] theorem withPairing_port : (s.withPairing st).port = s.port := rfl
@[simp] theorem withPairing_received : (s.withPairing st).received = s.received := rfl
end

section
variable (s : State) (sk re : Word)
@[simp] theorem withSelection_sum : (s.withSelection sk re).sum = s.sum := rfl
@[simp] theorem withSelection_pend : (s.withSelection sk re).pend = s.pend := rfl
@[simp] theorem withSelection_skip : (s.withSelection sk re).skip = sk := rfl
@[simp] theorem withSelection_rem : (s.withSelection sk re).rem = re := rfl
@[simp] theorem withSelection_addr : (s.withSelection sk re).addr = s.addr := rfl
@[simp] theorem withSelection_len : (s.withSelection sk re).len = s.len := rfl
@[simp] theorem withSelection_off : (s.withSelection sk re).off = s.off := rfl
@[simp] theorem withSelection_size : (s.withSelection sk re).size = s.size := rfl
@[simp] theorem withSelection_haddr : (s.withSelection sk re).haddr = s.haddr := rfl
@[simp] theorem withSelection_hlen : (s.withSelection sk re).hlen = s.hlen := rfl
@[simp] theorem withSelection_coff : (s.withSelection sk re).coff = s.coff := rfl
@[simp] theorem withSelection_proto : (s.withSelection sk re).proto = s.proto := rfl
@[simp] theorem withSelection_ulen : (s.withSelection sk re).ulen = s.ulen := rfl
@[simp] theorem withSelection_src0 : (s.withSelection sk re).src0 = s.src0 := rfl
@[simp] theorem withSelection_src1 : (s.withSelection sk re).src1 = s.src1 := rfl
@[simp] theorem withSelection_src2 : (s.withSelection sk re).src2 = s.src2 := rfl
@[simp] theorem withSelection_src3 : (s.withSelection sk re).src3 = s.src3 := rfl
@[simp] theorem withSelection_dst0 : (s.withSelection sk re).dst0 = s.dst0 := rfl
@[simp] theorem withSelection_dst1 : (s.withSelection sk re).dst1 = s.dst1 := rfl
@[simp] theorem withSelection_dst2 : (s.withSelection sk re).dst2 = s.dst2 := rfl
@[simp] theorem withSelection_dst3 : (s.withSelection sk re).dst3 = s.dst3 := rfl
@[simp] theorem withSelection_fault : (s.withSelection sk re).fault = s.fault := rfl
@[simp] theorem withSelection_cause : (s.withSelection sk re).cause = s.cause := rfl
@[simp] theorem withSelection_finfo : (s.withSelection sk re).finfo = s.finfo := rfl
@[simp] theorem withSelection_mem : (s.withSelection sk re).mem = s.mem := rfl
@[simp] theorem withSelection_input : (s.withSelection sk re).input = s.input := rfl
@[simp] theorem withSelection_pos : (s.withSelection sk re).pos = s.pos := rfl
@[simp] theorem withSelection_port : (s.withSelection sk re).port = s.port := rfl
@[simp] theorem withSelection_received : (s.withSelection sk re).received = s.received := rfl
end

section
variable (s : State) (r : Response)
@[simp] theorem respond_sum : (s.respond r).sum = s.sum := rfl
@[simp] theorem respond_pend : (s.respond r).pend = s.pend := rfl
@[simp] theorem respond_skip : (s.respond r).skip = s.skip := rfl
@[simp] theorem respond_rem : (s.respond r).rem = s.rem := rfl
@[simp] theorem respond_addr : (s.respond r).addr = s.addr := rfl
@[simp] theorem respond_len : (s.respond r).len = s.len := rfl
@[simp] theorem respond_off : (s.respond r).off = s.off := rfl
@[simp] theorem respond_size : (s.respond r).size = s.size := rfl
@[simp] theorem respond_haddr : (s.respond r).haddr = s.haddr := rfl
@[simp] theorem respond_hlen : (s.respond r).hlen = s.hlen := rfl
@[simp] theorem respond_coff : (s.respond r).coff = s.coff := rfl
@[simp] theorem respond_proto : (s.respond r).proto = s.proto := rfl
@[simp] theorem respond_ulen : (s.respond r).ulen = s.ulen := rfl
@[simp] theorem respond_src0 : (s.respond r).src0 = s.src0 := rfl
@[simp] theorem respond_src1 : (s.respond r).src1 = s.src1 := rfl
@[simp] theorem respond_src2 : (s.respond r).src2 = s.src2 := rfl
@[simp] theorem respond_src3 : (s.respond r).src3 = s.src3 := rfl
@[simp] theorem respond_dst0 : (s.respond r).dst0 = s.dst0 := rfl
@[simp] theorem respond_dst1 : (s.respond r).dst1 = s.dst1 := rfl
@[simp] theorem respond_dst2 : (s.respond r).dst2 = s.dst2 := rfl
@[simp] theorem respond_dst3 : (s.respond r).dst3 = s.dst3 := rfl
@[simp] theorem respond_fault : (s.respond r).fault = s.fault := rfl
@[simp] theorem respond_cause : (s.respond r).cause = s.cause := rfl
@[simp] theorem respond_finfo : (s.respond r).finfo = s.finfo := rfl
@[simp] theorem respond_mem : (s.respond r).mem = s.mem := rfl
@[simp] theorem respond_input : (s.respond r).input = s.input := rfl
@[simp] theorem respond_pos : (s.respond r).pos = s.pos := rfl
@[simp] theorem respond_port : (s.respond r).port = s.port ++ [r] := rfl
@[simp] theorem respond_received : (s.respond r).received = s.received := rfl
end

section
variable (s : State)
@[simp] theorem resetRegs_sum : s.resetRegs.sum = State.reset.sum := rfl
@[simp] theorem resetRegs_pend : s.resetRegs.pend = State.reset.pend := rfl
@[simp] theorem resetRegs_skip : s.resetRegs.skip = State.reset.skip := rfl
@[simp] theorem resetRegs_rem : s.resetRegs.rem = State.reset.rem := rfl
@[simp] theorem resetRegs_addr : s.resetRegs.addr = State.reset.addr := rfl
@[simp] theorem resetRegs_len : s.resetRegs.len = State.reset.len := rfl
@[simp] theorem resetRegs_off : s.resetRegs.off = State.reset.off := rfl
@[simp] theorem resetRegs_size : s.resetRegs.size = State.reset.size := rfl
@[simp] theorem resetRegs_haddr : s.resetRegs.haddr = State.reset.haddr := rfl
@[simp] theorem resetRegs_hlen : s.resetRegs.hlen = State.reset.hlen := rfl
@[simp] theorem resetRegs_coff : s.resetRegs.coff = State.reset.coff := rfl
@[simp] theorem resetRegs_proto : s.resetRegs.proto = State.reset.proto := rfl
@[simp] theorem resetRegs_ulen : s.resetRegs.ulen = State.reset.ulen := rfl
@[simp] theorem resetRegs_src0 : s.resetRegs.src0 = State.reset.src0 := rfl
@[simp] theorem resetRegs_src1 : s.resetRegs.src1 = State.reset.src1 := rfl
@[simp] theorem resetRegs_src2 : s.resetRegs.src2 = State.reset.src2 := rfl
@[simp] theorem resetRegs_src3 : s.resetRegs.src3 = State.reset.src3 := rfl
@[simp] theorem resetRegs_dst0 : s.resetRegs.dst0 = State.reset.dst0 := rfl
@[simp] theorem resetRegs_dst1 : s.resetRegs.dst1 = State.reset.dst1 := rfl
@[simp] theorem resetRegs_dst2 : s.resetRegs.dst2 = State.reset.dst2 := rfl
@[simp] theorem resetRegs_dst3 : s.resetRegs.dst3 = State.reset.dst3 := rfl
@[simp] theorem resetRegs_fault : s.resetRegs.fault = State.reset.fault := rfl
@[simp] theorem resetRegs_cause : s.resetRegs.cause = State.reset.cause := rfl
@[simp] theorem resetRegs_finfo : s.resetRegs.finfo = State.reset.finfo := rfl
@[simp] theorem resetRegs_mem : s.resetRegs.mem = s.mem := rfl
@[simp] theorem resetRegs_input : s.resetRegs.input = s.input := rfl
@[simp] theorem resetRegs_pos : s.resetRegs.pos = s.pos := rfl
@[simp] theorem resetRegs_port : s.resetRegs.port = s.port := rfl
@[simp] theorem resetRegs_received : s.resetRegs.received = s.received := rfl
end

section
variable (s : State)
@[simp] theorem resetInput_sum : s.resetInput.sum = State.reset.sum := rfl
@[simp] theorem resetInput_pend : s.resetInput.pend = State.reset.pend := rfl
@[simp] theorem resetInput_skip : s.resetInput.skip = State.reset.skip := rfl
@[simp] theorem resetInput_rem : s.resetInput.rem = State.reset.rem := rfl
@[simp] theorem resetInput_addr : s.resetInput.addr = State.reset.addr := rfl
@[simp] theorem resetInput_len : s.resetInput.len = State.reset.len := rfl
@[simp] theorem resetInput_off : s.resetInput.off = State.reset.off := rfl
@[simp] theorem resetInput_size : s.resetInput.size = State.reset.size := rfl
@[simp] theorem resetInput_haddr : s.resetInput.haddr = State.reset.haddr := rfl
@[simp] theorem resetInput_hlen : s.resetInput.hlen = State.reset.hlen := rfl
@[simp] theorem resetInput_coff : s.resetInput.coff = State.reset.coff := rfl
@[simp] theorem resetInput_proto : s.resetInput.proto = State.reset.proto := rfl
@[simp] theorem resetInput_ulen : s.resetInput.ulen = State.reset.ulen := rfl
@[simp] theorem resetInput_src0 : s.resetInput.src0 = State.reset.src0 := rfl
@[simp] theorem resetInput_src1 : s.resetInput.src1 = State.reset.src1 := rfl
@[simp] theorem resetInput_src2 : s.resetInput.src2 = State.reset.src2 := rfl
@[simp] theorem resetInput_src3 : s.resetInput.src3 = State.reset.src3 := rfl
@[simp] theorem resetInput_dst0 : s.resetInput.dst0 = State.reset.dst0 := rfl
@[simp] theorem resetInput_dst1 : s.resetInput.dst1 = State.reset.dst1 := rfl
@[simp] theorem resetInput_dst2 : s.resetInput.dst2 = State.reset.dst2 := rfl
@[simp] theorem resetInput_dst3 : s.resetInput.dst3 = State.reset.dst3 := rfl
@[simp] theorem resetInput_fault : s.resetInput.fault = State.reset.fault := rfl
@[simp] theorem resetInput_cause : s.resetInput.cause = State.reset.cause := rfl
@[simp] theorem resetInput_finfo : s.resetInput.finfo = State.reset.finfo := rfl
@[simp] theorem resetInput_mem : s.resetInput.mem = s.mem := rfl
@[simp] theorem resetInput_input : s.resetInput.input = s.input := rfl
@[simp] theorem resetInput_pos : s.resetInput.pos = s.pos := rfl
@[simp] theorem resetInput_port : s.resetInput.port = [] := rfl
@[simp] theorem resetInput_received : s.resetInput.received = s.received := rfl
end

section
variable (s : State) (rest : List HostMove)
@[simp] theorem withInput_sum : (s.withInput rest).sum = s.sum := rfl
@[simp] theorem withInput_pend : (s.withInput rest).pend = s.pend := rfl
@[simp] theorem withInput_skip : (s.withInput rest).skip = s.skip := rfl
@[simp] theorem withInput_rem : (s.withInput rest).rem = s.rem := rfl
@[simp] theorem withInput_addr : (s.withInput rest).addr = s.addr := rfl
@[simp] theorem withInput_len : (s.withInput rest).len = s.len := rfl
@[simp] theorem withInput_off : (s.withInput rest).off = s.off := rfl
@[simp] theorem withInput_size : (s.withInput rest).size = s.size := rfl
@[simp] theorem withInput_haddr : (s.withInput rest).haddr = s.haddr := rfl
@[simp] theorem withInput_hlen : (s.withInput rest).hlen = s.hlen := rfl
@[simp] theorem withInput_coff : (s.withInput rest).coff = s.coff := rfl
@[simp] theorem withInput_proto : (s.withInput rest).proto = s.proto := rfl
@[simp] theorem withInput_ulen : (s.withInput rest).ulen = s.ulen := rfl
@[simp] theorem withInput_src0 : (s.withInput rest).src0 = s.src0 := rfl
@[simp] theorem withInput_src1 : (s.withInput rest).src1 = s.src1 := rfl
@[simp] theorem withInput_src2 : (s.withInput rest).src2 = s.src2 := rfl
@[simp] theorem withInput_src3 : (s.withInput rest).src3 = s.src3 := rfl
@[simp] theorem withInput_dst0 : (s.withInput rest).dst0 = s.dst0 := rfl
@[simp] theorem withInput_dst1 : (s.withInput rest).dst1 = s.dst1 := rfl
@[simp] theorem withInput_dst2 : (s.withInput rest).dst2 = s.dst2 := rfl
@[simp] theorem withInput_dst3 : (s.withInput rest).dst3 = s.dst3 := rfl
@[simp] theorem withInput_fault : (s.withInput rest).fault = s.fault := rfl
@[simp] theorem withInput_cause : (s.withInput rest).cause = s.cause := rfl
@[simp] theorem withInput_finfo : (s.withInput rest).finfo = s.finfo := rfl
@[simp] theorem withInput_mem : (s.withInput rest).mem = s.mem := rfl
@[simp] theorem withInput_input : (s.withInput rest).input = rest := rfl
@[simp] theorem withInput_pos : (s.withInput rest).pos = s.pos := rfl
@[simp] theorem withInput_port : (s.withInput rest).port = s.port := rfl
@[simp] theorem withInput_received : (s.withInput rest).received = s.received := rfl
end

section
variable (s : State)
@[simp] theorem advance_sum : s.advance.sum = s.sum := rfl
@[simp] theorem advance_pend : s.advance.pend = s.pend := rfl
@[simp] theorem advance_skip : s.advance.skip = s.skip := rfl
@[simp] theorem advance_rem : s.advance.rem = s.rem := rfl
@[simp] theorem advance_addr : s.advance.addr = s.addr := rfl
@[simp] theorem advance_len : s.advance.len = s.len := rfl
@[simp] theorem advance_off : s.advance.off = s.off := rfl
@[simp] theorem advance_size : s.advance.size = s.size := rfl
@[simp] theorem advance_haddr : s.advance.haddr = s.haddr := rfl
@[simp] theorem advance_hlen : s.advance.hlen = s.hlen := rfl
@[simp] theorem advance_coff : s.advance.coff = s.coff := rfl
@[simp] theorem advance_proto : s.advance.proto = s.proto := rfl
@[simp] theorem advance_ulen : s.advance.ulen = s.ulen := rfl
@[simp] theorem advance_src0 : s.advance.src0 = s.src0 := rfl
@[simp] theorem advance_src1 : s.advance.src1 = s.src1 := rfl
@[simp] theorem advance_src2 : s.advance.src2 = s.src2 := rfl
@[simp] theorem advance_src3 : s.advance.src3 = s.src3 := rfl
@[simp] theorem advance_dst0 : s.advance.dst0 = s.dst0 := rfl
@[simp] theorem advance_dst1 : s.advance.dst1 = s.dst1 := rfl
@[simp] theorem advance_dst2 : s.advance.dst2 = s.dst2 := rfl
@[simp] theorem advance_dst3 : s.advance.dst3 = s.dst3 := rfl
@[simp] theorem advance_fault : s.advance.fault = s.fault := rfl
@[simp] theorem advance_cause : s.advance.cause = s.cause := rfl
@[simp] theorem advance_finfo : s.advance.finfo = s.finfo := rfl
@[simp] theorem advance_mem : s.advance.mem = s.mem := rfl
@[simp] theorem advance_input : s.advance.input = s.input := rfl
@[simp] theorem advance_pos : s.advance.pos = s.pos + 1 := rfl
@[simp] theorem advance_port : s.advance.port = s.port := rfl
@[simp] theorem advance_received : s.advance.received = s.received := rfl
end

section
variable (s : State) (a : Word) (v : Option Byte)
@[simp] theorem changeMemory_sum : (s.changeMemory a v).sum = s.sum := rfl
@[simp] theorem changeMemory_pend : (s.changeMemory a v).pend = s.pend := rfl
@[simp] theorem changeMemory_skip : (s.changeMemory a v).skip = s.skip := rfl
@[simp] theorem changeMemory_rem : (s.changeMemory a v).rem = s.rem := rfl
@[simp] theorem changeMemory_addr : (s.changeMemory a v).addr = s.addr := rfl
@[simp] theorem changeMemory_len : (s.changeMemory a v).len = s.len := rfl
@[simp] theorem changeMemory_off : (s.changeMemory a v).off = s.off := rfl
@[simp] theorem changeMemory_size : (s.changeMemory a v).size = s.size := rfl
@[simp] theorem changeMemory_haddr : (s.changeMemory a v).haddr = s.haddr := rfl
@[simp] theorem changeMemory_hlen : (s.changeMemory a v).hlen = s.hlen := rfl
@[simp] theorem changeMemory_coff : (s.changeMemory a v).coff = s.coff := rfl
@[simp] theorem changeMemory_proto : (s.changeMemory a v).proto = s.proto := rfl
@[simp] theorem changeMemory_ulen : (s.changeMemory a v).ulen = s.ulen := rfl
@[simp] theorem changeMemory_src0 : (s.changeMemory a v).src0 = s.src0 := rfl
@[simp] theorem changeMemory_src1 : (s.changeMemory a v).src1 = s.src1 := rfl
@[simp] theorem changeMemory_src2 : (s.changeMemory a v).src2 = s.src2 := rfl
@[simp] theorem changeMemory_src3 : (s.changeMemory a v).src3 = s.src3 := rfl
@[simp] theorem changeMemory_dst0 : (s.changeMemory a v).dst0 = s.dst0 := rfl
@[simp] theorem changeMemory_dst1 : (s.changeMemory a v).dst1 = s.dst1 := rfl
@[simp] theorem changeMemory_dst2 : (s.changeMemory a v).dst2 = s.dst2 := rfl
@[simp] theorem changeMemory_dst3 : (s.changeMemory a v).dst3 = s.dst3 := rfl
@[simp] theorem changeMemory_fault : (s.changeMemory a v).fault = s.fault := rfl
@[simp] theorem changeMemory_cause : (s.changeMemory a v).cause = s.cause := rfl
@[simp] theorem changeMemory_finfo : (s.changeMemory a v).finfo = s.finfo := rfl
@[simp] theorem changeMemory_mem : (s.changeMemory a v).mem = Memory.put s.mem a.toNat v := rfl
@[simp] theorem changeMemory_input : (s.changeMemory a v).input = s.input := rfl
@[simp] theorem changeMemory_pos : (s.changeMemory a v).pos = s.pos := rfl
@[simp] theorem changeMemory_port : (s.changeMemory a v).port = s.port := rfl
@[simp] theorem changeMemory_received : (s.changeMemory a v).received = s.received := rfl
end

section
variable (s : State) (w : Cmd)
@[simp] theorem withNextCommand_sum : (s.withNextCommand w).sum = s.sum := rfl
@[simp] theorem withNextCommand_pend : (s.withNextCommand w).pend = s.pend := rfl
@[simp] theorem withNextCommand_skip : (s.withNextCommand w).skip = s.skip := rfl
@[simp] theorem withNextCommand_rem : (s.withNextCommand w).rem = s.rem := rfl
@[simp] theorem withNextCommand_addr : (s.withNextCommand w).addr = s.addr := rfl
@[simp] theorem withNextCommand_len : (s.withNextCommand w).len = s.len := rfl
@[simp] theorem withNextCommand_off : (s.withNextCommand w).off = s.off := rfl
@[simp] theorem withNextCommand_size : (s.withNextCommand w).size = s.size := rfl
@[simp] theorem withNextCommand_haddr : (s.withNextCommand w).haddr = s.haddr := rfl
@[simp] theorem withNextCommand_hlen : (s.withNextCommand w).hlen = s.hlen := rfl
@[simp] theorem withNextCommand_coff : (s.withNextCommand w).coff = s.coff := rfl
@[simp] theorem withNextCommand_proto : (s.withNextCommand w).proto = s.proto := rfl
@[simp] theorem withNextCommand_ulen : (s.withNextCommand w).ulen = s.ulen := rfl
@[simp] theorem withNextCommand_src0 : (s.withNextCommand w).src0 = s.src0 := rfl
@[simp] theorem withNextCommand_src1 : (s.withNextCommand w).src1 = s.src1 := rfl
@[simp] theorem withNextCommand_src2 : (s.withNextCommand w).src2 = s.src2 := rfl
@[simp] theorem withNextCommand_src3 : (s.withNextCommand w).src3 = s.src3 := rfl
@[simp] theorem withNextCommand_dst0 : (s.withNextCommand w).dst0 = s.dst0 := rfl
@[simp] theorem withNextCommand_dst1 : (s.withNextCommand w).dst1 = s.dst1 := rfl
@[simp] theorem withNextCommand_dst2 : (s.withNextCommand w).dst2 = s.dst2 := rfl
@[simp] theorem withNextCommand_dst3 : (s.withNextCommand w).dst3 = s.dst3 := rfl
@[simp] theorem withNextCommand_fault : (s.withNextCommand w).fault = s.fault := rfl
@[simp] theorem withNextCommand_cause : (s.withNextCommand w).cause = s.cause := rfl
@[simp] theorem withNextCommand_finfo : (s.withNextCommand w).finfo = s.finfo := rfl
@[simp] theorem withNextCommand_mem : (s.withNextCommand w).mem = s.mem := rfl
@[simp] theorem withNextCommand_input : (s.withNextCommand w).input = .command w :: s.input := rfl
@[simp] theorem withNextCommand_pos : (s.withNextCommand w).pos = s.pos := rfl
@[simp] theorem withNextCommand_port : (s.withNextCommand w).port = s.port := rfl
@[simp] theorem withNextCommand_received : (s.withNextCommand w).received = s.received := rfl
end

/-! `writeReg` leaves every field but the SET-writable registers alone. -/

section
variable (s : State) (r : Reg) (v : Word)
@[simp] theorem writeReg_pend : (s.writeReg r v).pend = s.pend := by cases r <;> rfl
@[simp] theorem writeReg_skip : (s.writeReg r v).skip = s.skip := by cases r <;> rfl
@[simp] theorem writeReg_rem : (s.writeReg r v).rem = s.rem := by cases r <;> rfl
@[simp] theorem writeReg_fault : (s.writeReg r v).fault = s.fault := by cases r <;> rfl
@[simp] theorem writeReg_cause : (s.writeReg r v).cause = s.cause := by cases r <;> rfl
@[simp] theorem writeReg_finfo : (s.writeReg r v).finfo = s.finfo := by cases r <;> rfl
@[simp] theorem writeReg_mem : (s.writeReg r v).mem = s.mem := by cases r <;> rfl
@[simp] theorem writeReg_input : (s.writeReg r v).input = s.input := by cases r <;> rfl
@[simp] theorem writeReg_pos : (s.writeReg r v).pos = s.pos := by cases r <;> rfl
@[simp] theorem writeReg_port : (s.writeReg r v).port = s.port := by cases r <;> rfl
@[simp] theorem writeReg_received : (s.writeReg r v).received = s.received := by cases r <;> rfl
end

/-! `takeResponse` changes the response port and what the host has taken, and nothing else. -/

section
variable (s : State)
@[simp] theorem takeResponse_sum : s.takeResponse.sum = s.sum := by
  unfold State.takeResponse; split <;> rfl
@[simp] theorem takeResponse_pend : s.takeResponse.pend = s.pend := by
  unfold State.takeResponse; split <;> rfl
@[simp] theorem takeResponse_skip : s.takeResponse.skip = s.skip := by
  unfold State.takeResponse; split <;> rfl
@[simp] theorem takeResponse_rem : s.takeResponse.rem = s.rem := by
  unfold State.takeResponse; split <;> rfl
@[simp] theorem takeResponse_addr : s.takeResponse.addr = s.addr := by
  unfold State.takeResponse; split <;> rfl
@[simp] theorem takeResponse_len : s.takeResponse.len = s.len := by
  unfold State.takeResponse; split <;> rfl
@[simp] theorem takeResponse_off : s.takeResponse.off = s.off := by
  unfold State.takeResponse; split <;> rfl
@[simp] theorem takeResponse_size : s.takeResponse.size = s.size := by
  unfold State.takeResponse; split <;> rfl
@[simp] theorem takeResponse_haddr : s.takeResponse.haddr = s.haddr := by
  unfold State.takeResponse; split <;> rfl
@[simp] theorem takeResponse_hlen : s.takeResponse.hlen = s.hlen := by
  unfold State.takeResponse; split <;> rfl
@[simp] theorem takeResponse_coff : s.takeResponse.coff = s.coff := by
  unfold State.takeResponse; split <;> rfl
@[simp] theorem takeResponse_proto : s.takeResponse.proto = s.proto := by
  unfold State.takeResponse; split <;> rfl
@[simp] theorem takeResponse_ulen : s.takeResponse.ulen = s.ulen := by
  unfold State.takeResponse; split <;> rfl
@[simp] theorem takeResponse_src0 : s.takeResponse.src0 = s.src0 := by
  unfold State.takeResponse; split <;> rfl
@[simp] theorem takeResponse_src1 : s.takeResponse.src1 = s.src1 := by
  unfold State.takeResponse; split <;> rfl
@[simp] theorem takeResponse_src2 : s.takeResponse.src2 = s.src2 := by
  unfold State.takeResponse; split <;> rfl
@[simp] theorem takeResponse_src3 : s.takeResponse.src3 = s.src3 := by
  unfold State.takeResponse; split <;> rfl
@[simp] theorem takeResponse_dst0 : s.takeResponse.dst0 = s.dst0 := by
  unfold State.takeResponse; split <;> rfl
@[simp] theorem takeResponse_dst1 : s.takeResponse.dst1 = s.dst1 := by
  unfold State.takeResponse; split <;> rfl
@[simp] theorem takeResponse_dst2 : s.takeResponse.dst2 = s.dst2 := by
  unfold State.takeResponse; split <;> rfl
@[simp] theorem takeResponse_dst3 : s.takeResponse.dst3 = s.dst3 := by
  unfold State.takeResponse; split <;> rfl
@[simp] theorem takeResponse_fault : s.takeResponse.fault = s.fault := by
  unfold State.takeResponse; split <;> rfl
@[simp] theorem takeResponse_cause : s.takeResponse.cause = s.cause := by
  unfold State.takeResponse; split <;> rfl
@[simp] theorem takeResponse_finfo : s.takeResponse.finfo = s.finfo := by
  unfold State.takeResponse; split <;> rfl
@[simp] theorem takeResponse_mem : s.takeResponse.mem = s.mem := by
  unfold State.takeResponse; split <;> rfl
@[simp] theorem takeResponse_input : s.takeResponse.input = s.input := by
  unfold State.takeResponse; split <;> rfl
@[simp] theorem takeResponse_pos : s.takeResponse.pos = s.pos := by
  unfold State.takeResponse; split <;> rfl
end

@[simp] theorem pairing_sum (s : State) : s.pairing.sum = s.sum := rfl
@[simp] theorem pairing_pend (s : State) : s.pairing.pend = s.pend := rfl

end Sys2Proof.Machine
end

