-- ==== Sys2Proof/Laws/Ops.lean ====
section
/-! SUPPORT. What each shared operation can do, said once. -/

namespace Sys2Proof.Machine

theorem unlessFaulted_eq (s k : State) : unlessFaulted s k = .next (if s.fault then s else k) := rfl

/-- A command that tests FAULT is discarded while it is 1. -/
theorem unlessFaulted_of_fault {s : State} (k : State) (h : s.fault = true) :
    unlessFaulted s k = .next s := by
  simp [unlessFaulted, h]

/-- A command that tests FAULT has its effect while it is 0. -/
theorem unlessFaulted_of_clear {s : State} (k : State) (h : s.fault = false) :
    unlessFaulted s k = .next k := by
  simp [unlessFaulted, h]

/-- The two ends of such a command. -/
theorem unlessFaulted_cases {s k t : State} (h : unlessFaulted s k = .next t) :
    s.fault = true ∧ t = s ∨ s.fault = false ∧ t = k := by
  cases hf : s.fault <;> simp_all [unlessFaulted]

@[simp] theorem settle_error (s : State) (v : Violation) : s.settle (.error v) = s.raise v := rfl
@[simp] theorem settle_ok (s t : State) : s.settle (.ok t) = t := rfl

theorem wraps_iff (a n : Nat) : wraps a n = true ↔ 2 ^ 32 < a + n := by
  unfold wraps Config.addressSpace
  exact decide_eq_true_iff

theorem holdsBytes_nil (m : Memory) (a : Nat) : HoldsBytes m a [] := by
  intro k b h; simp at h

theorem holdsBytes_cons {m : Memory} {a : Nat} {b : Byte} {bs : List Byte} :
    HoldsBytes m a (b :: bs) ↔ Memory.read m a = some b ∧ HoldsBytes m (a + 1) bs := by
  constructor
  · intro h
    refine ⟨by simpa using h 0 b rfl, fun k c hk => ?_⟩
    have := h (k + 1) c (by simpa using hk)
    rwa [show a + (k + 1) = a + 1 + k by omega] at this
  · rintro ⟨h0, h⟩ k c hk
    cases k with
    | zero => simp at hk; subst hk; simpa using h0
    | succ k =>
      have := h k c (by simpa using hk)
      rwa [show a + 1 + k = a + (k + 1) by omega] at this

/-- A read of `n` bytes succeeds with exactly the bytes that stand there. -/
theorem readBytes_ok_iff {m : Memory} : ∀ {n a : Nat} {bs : List Byte},
    readBytes m a n = .ok bs ↔ bs.length = n ∧ HoldsBytes m a bs := by
  intro n
  induction n with
  | zero =>
    intro a bs
    constructor
    · intro h; simp [readBytes] at h; subst h; exact ⟨rfl, holdsBytes_nil m a⟩
    · rintro ⟨h, _⟩; simp [List.length_eq_zero_iff.mp h, readBytes]
  | succ n ih =>
    intro a bs
    unfold readBytes
    constructor
    · intro h
      split at h
      · cases h
      · next b hb =>
        split at h
        · cases h
        · next bs' hbs =>
          cases h
          obtain ⟨hl, hh⟩ := ih.mp hbs
          exact ⟨by simp [hl], holdsBytes_cons.mpr ⟨hb, hh⟩⟩
    · rintro ⟨hl, hh⟩
      cases bs with
      | nil => simp at hl
      | cons b bs =>
        rw [holdsBytes_cons] at hh
        have := ih.mpr ⟨by simpa using hl, hh.2⟩
        simp [hh.1, this]

/-- A read of `n` bytes fails exactly at the lowest address that does not answer. -/
theorem readBytes_error_iff {m : Memory} : ∀ {n a : Nat} {v : Violation},
    readBytes m a n = .error v ↔
      ∃ x, FirstUnanswered m a n x ∧ v = ⟨.busError, BitVec.ofNat 32 x⟩ := by
  intro n
  induction n with
  | zero =>
    intro a v
    constructor
    · intro h; cases h
    · rintro ⟨x, ⟨h1, h2, _⟩, _⟩; omega
  | succ n ih =>
    intro a v
    unfold readBytes
    constructor
    · intro h
      split at h
      · next hn =>
        cases h
        exact ⟨a, ⟨le_refl a, by omega, hn, fun y h1 h2 => by omega⟩, rfl⟩
      · next b hb =>
        split at h
        · next v' hv =>
          cases h
          obtain ⟨x, ⟨h1, h2, h3, h4⟩, hv⟩ := ih.mp hv
          refine ⟨x, ⟨by omega, by omega, h3, fun y hy hx => ?_⟩, hv⟩
          by_cases hya : y = a
          · subst hya; simp [hb]
          · exact h4 y (by omega) hx
        · cases h
    · rintro ⟨x, ⟨h1, h2, h3, h4⟩, rfl⟩
      by_cases hxa : x = a
      · subst hxa; simp [h3]
      · cases hb : Memory.read m a with
        | none => exact absurd hb (h4 a (le_refl a) (by omega))
        | some b =>
          have := (ih (a := a + 1) (v := ⟨.busError, BitVec.ofNat 32 x⟩)).mpr
            ⟨x, ⟨by omega, by omega, h3, fun y hy hx => h4 y (by omega) hx⟩, rfl⟩
          simp [this]

/-- Everything `MemRead` can answer (rule R63). -/
theorem memRead_cases (m : Memory) (a n : Nat) :
    2 ^ 32 < a + n ∧ memRead m a n = .error ⟨.addrWrap, BitVec.ofNat 32 a⟩ ∨
    a + n ≤ 2 ^ 32 ∧ (∃ x, FirstUnanswered m a n x ∧
      memRead m a n = .error ⟨.busError, BitVec.ofNat 32 x⟩) ∨
    a + n ≤ 2 ^ 32 ∧ ∃ bs, bs.length = n ∧ HoldsBytes m a bs ∧ memRead m a n = .ok bs := by
  by_cases hw : 2 ^ 32 < a + n
  · exact .inl ⟨hw, by simp only [memRead, (wraps_iff a n).mpr hw, if_true]⟩
  · have hw' : wraps a n = false := by
      rw [Bool.eq_false_iff]; exact fun h => hw ((wraps_iff a n).mp h)
    right
    cases hr : readBytes m a n with
    | error v =>
      obtain ⟨x, hx, rfl⟩ := readBytes_error_iff.mp hr
      exact .inl ⟨by omega, x, hx, by simp [memRead, hw', hr]⟩
    | ok bs =>
      obtain ⟨hl, hh⟩ := readBytes_ok_iff.mp hr
      exact .inr ⟨by omega, bs, hl, hh, by simp [memRead, hw', hr]⟩

/-- Two memories that agree on a range give the same read of it. -/
theorem memRead_congr {m m' : Memory} {a n : Nat}
    (h : ∀ x, a ≤ x → x < a + n → Memory.read m' x = Memory.read m x) :
    memRead m' a n = memRead m a n := by
  have key : ∀ (n a : Nat), (∀ x, a ≤ x → x < a + n → Memory.read m' x = Memory.read m x) →
      readBytes m' a n = readBytes m a n := by
    intro n
    induction n with
    | zero => intros; rfl
    | succ n ih =>
      intro a h
      simp only [readBytes, h a (le_refl a) (by omega)]
      rw [ih (a + 1) fun x h1 h2 => h x (by omega) (by omega)]
  simp only [memRead, key n a h]

/-- Everything a SEG's read can answer (rule R133). -/
theorem readTaken_cases (s : State) :
    2 ^ 32 < s.addr.toNat + s.len.toNat ∧ s.readTaken = .error ⟨.addrWrap, s.addr⟩ ∨
    s.addr.toNat + s.len.toNat ≤ 2 ^ 32 ∧
      (∃ x, FirstUnanswered s.mem (s.addr.toNat + s.segSkip) s.segTake x ∧
        s.readTaken = .error ⟨.busError, BitVec.ofNat 32 x⟩) ∨
    s.addr.toNat + s.len.toNat ≤ 2 ^ 32 ∧
      ∃ bs, bs.length = s.segTake ∧ HoldsBytes s.mem (s.addr.toNat + s.segSkip) bs ∧
        s.readTaken = .ok bs := by
  by_cases hw : 2 ^ 32 < s.addr.toNat + s.len.toNat
  · exact .inl ⟨hw, by simp only [State.readTaken, (wraps_iff _ _).mpr hw, if_true]⟩
  · have hw' : wraps s.addr.toNat s.len.toNat = false := by
      rw [Bool.eq_false_iff]; exact fun h => hw ((wraps_iff _ _).mp h)
    have hle : s.addr.toNat + s.segSkip + s.segTake ≤ 2 ^ 32 := by
      simp only [State.segSkip, State.segTake]; omega
    right
    rcases memRead_cases s.mem (s.addr.toNat + s.segSkip) s.segTake with
      ⟨h, _⟩ | ⟨_, x, hx, hr⟩ | ⟨_, bs, hl, hh, hr⟩
    · omega
    · exact .inl ⟨by omega, x, hx, by simp [State.readTaken, hw', hr]⟩
    · exact .inr ⟨by omega, bs, hl, hh, by simp [State.readTaken, hw', hr]⟩

/-- The pairing machine does not see how a sequence is cut. -/
theorem run_append (st : Pairing) (a b : List Byte) : run st (a ++ b) = run (run st a) b := by
  simp [run]

@[simp] theorem run_nil (st : Pairing) : run st [] = st := rfl

@[simp] theorem finish_pend (st : Pairing) : (finish st).pend = none := by
  unfold finish; split <;> simp_all

theorem masked_length (h : List Byte) (c : Nat) : (masked h c).length = h.length := by
  simp [masked]

/-- A register SET may write reads back as the value written, if that fits. -/
theorem readReg_writeReg {s : State} {r : Reg} {v : Word} (hw : r.writable = true)
    (hf : r.fits v = true) : (s.writeReg r v).readReg r = v := by
  have hlt : v.toNat < 2 ^ r.width := of_decide_eq_true hf
  cases r <;> first | rfl | (simp [Reg.writable] at hw; done) | skip
  all_goals
    simp only [Reg.width] at hlt
    apply BitVec.eq_of_toNat_eq
    simp only [State.writeReg, State.readReg, BitVec.toNat_setWidth]
    omega

end Sys2Proof.Machine
end

