-- ==== Sys2Proof/Laws/Arith.lean ====
section
/-! SUPPORT. Small laws of the arithmetic of 40_arithmetic.md. -/

namespace Sys2Proof.Machine

theorem canon_of_lt {n : Nat} (h : n < 65536) : canon n = n := by
  unfold canon
  split <;> omega

/-- A canonical value may be taken early. -/
theorem canon_canon_add (x y : Nat) : canon (canon x + y) = canon (x + y) := by
  unfold canon
  split <;> split <;> (try split) <;> omega

/-- One pass of the reducer keeps the canonical value. -/
theorem canon_pass (n : Nat) : canon (n % 2 ^ 16 + n / 2 ^ 16) = canon n := by
  unfold canon
  split <;> split <;> omega

/-- Two bytes of a stream that is aligned are one word. -/
theorem csum_cons_cons (a b : Byte) (bs : List Byte) (i : Half) :
    csum (a :: b :: bs) i = csum bs (ocadd i (word a b)) := rfl

@[simp] theorem csum_nil (i : Half) : csum [] i = i := rfl

theorem wordSum_cons_cons (a b : Byte) (bs : List Byte) :
    wordSum (a :: b :: bs) = a.toNat * 256 + b.toNat + wordSum bs := rfl

/-- Word sums add when the first piece is even. -/
theorem wordSum_append : ∀ (a b : List Byte), a.length % 2 = 0 →
    wordSum (a ++ b) = wordSum a + wordSum b
  | [], b, _ => by simp [wordSum]
  | [_], _, h => by simp at h
  | x :: y :: a, b, h => by
    have ih := wordSum_append a b (by simp only [List.length_cons] at h; omega)
    simp only [List.cons_append, wordSum_cons_cons, ih]
    omega

theorem wordBytes_length (w : Word) : (wordBytes w).length = 4 := rfl

/-- A 32-bit value contributes its two halves. -/
theorem wordSum_wordBytes (w : Word) :
    wordSum (wordBytes w) = w.toNat / 2 ^ 16 + w.toNat % 2 ^ 16 := by
  have := w.isLt
  simp only [wordBytes, wordSum, BitVec.extractLsb'_toNat, Nat.shiftRight_eq_div_pow]
  omega

end Sys2Proof.Machine
end

