-- ==== Sys2Proof/Laws/Encode.lean ====
section
/-! SUPPORT. The fields of a command word as numbers, the fields of an assembled word, and the opcode
map and register index space read both ways. -/

namespace Sys2Proof

theorem toNat_append_add {m n : Nat} (x : BitVec m) (y : BitVec n) :
    (x ++ y).toNat = x.toNat * 2 ^ n + y.toNat := by
  rw [BitVec.toNat_append, ← Nat.shiftLeft_add_eq_or_of_lt y.isLt, Nat.shiftLeft_eq]

/-- An assembled word as a sum: the assembler's shifts of rule R87. -/
theorem commandWord_toNat (op : BitVec 8) (r : BitVec 5) (imm : Word) :
    (commandWord op r imm).toNat = op.toNat * 2 ^ 56 + r.toNat * 2 ^ 51 + imm.toNat := by
  have h := toNat_append_add (op ++ r ++ 0#19) imm
  rw [toNat_append_add (op ++ r) 0#19, toNat_append_add op r] at h
  simp only [BitVec.toNat_ofNat] at h
  unfold commandWord
  rw [show (op ++ r ++ 0#19 ++ imm : BitVec 64).toNat = _ from h]
  omega

theorem opField_toNat (w : Cmd) : (opField w).toNat = w.toNat / 2 ^ 56 := by
  have := w.isLt
  simp only [opField, BitVec.extractLsb'_toNat, Nat.shiftRight_eq_div_pow]
  omega

theorem rField_toNat (w : Cmd) : (rField w).toNat = w.toNat / 2 ^ 51 % 2 ^ 5 := by
  simp only [rField, BitVec.extractLsb'_toNat, Nat.shiftRight_eq_div_pow]

theorem zField_toNat (w : Cmd) : (zField w).toNat = w.toNat / 2 ^ 32 % 2 ^ 19 := by
  simp only [zField, BitVec.extractLsb'_toNat, Nat.shiftRight_eq_div_pow]

theorem immField_toNat (w : Cmd) : (immField w).toNat = w.toNat % 2 ^ 32 := by
  simp only [immField, BitVec.extractLsb'_toNat, Nat.shiftRight_eq_div_pow]
  omega

theorem upperHalf_eq (w : Cmd) : upperHalf w = BitVec.ofNat 32 (w.toNat / 2 ^ 32) := by
  apply BitVec.eq_of_toNat_eq
  simp only [upperHalf, BitVec.extractLsb'_toNat, Nat.shiftRight_eq_div_pow, BitVec.toNat_ofNat]

section
variable (op : BitVec 8) (r : BitVec 5) (imm : Word)

@[simp] theorem opField_commandWord : opField (commandWord op r imm) = op := by
  apply BitVec.eq_of_toNat_eq
  have := r.isLt
  have := imm.isLt
  rw [opField_toNat, commandWord_toNat]
  omega

@[simp] theorem rField_commandWord : rField (commandWord op r imm) = r := by
  apply BitVec.eq_of_toNat_eq
  have := r.isLt
  have := imm.isLt
  rw [rField_toNat, commandWord_toNat]
  omega

@[simp] theorem zField_commandWord : zField (commandWord op r imm) = 0 := by
  apply BitVec.eq_of_toNat_eq
  have := r.isLt
  have := imm.isLt
  rw [zField_toNat, commandWord_toNat]
  show _ = 0
  omega

@[simp] theorem immField_commandWord : immField (commandWord op r imm) = imm := by
  apply BitVec.eq_of_toNat_eq
  have := r.isLt
  have := imm.isLt
  rw [immField_toNat, commandWord_toNat]
  omega

end

/-- A word whose reserved field `z` is zero is assembled from its other fields. -/
theorem commandWord_fields {w : Cmd} (h : zField w = 0) :
    commandWord (opField w) (rField w) (immField w) = w := by
  apply BitVec.eq_of_toNat_eq
  have hz : (zField w).toNat = 0 := by rw [h]; rfl
  rw [zField_toNat] at hz
  rw [commandWord_toNat, opField_toNat, rField_toNat, immField_toNat]
  have := w.isLt
  omega

@[simp] theorem ofIndex_index (r : Reg) : Reg.ofIndex r.index = some r := by cases r <;> rfl

theorem index_of_ofIndex : ∀ {k : BitVec 5} {r : Reg}, Reg.ofIndex k = some r → r.index = k := by
  decide

/-- The unassigned indices (rule R38). -/
theorem ofIndex_none_iff : ∀ {k : BitVec 5}, Reg.ofIndex k = none ↔ 24 ≤ k.toNat := by decide

theorem opForm_i_iff : ∀ {op : BitVec 8}, opForm? op = some .i ↔ op = 0x01 := by decide

theorem opForm_r_iff : ∀ {op : BitVec 8}, opForm? op = some .r ↔ op = 0x02 := by decide

/-- The illegal opcodes (rule R85). -/
theorem opForm_none_iff : ∀ {op : BitVec 8}, opForm? op = none ↔
    op.toNat ∉ [0x00, 0x01, 0x02, 0x03, 0x10, 0x11, 0x12, 0x13, 0x20, 0x21, 0x30, 0x31, 0x32,
      0x33] := by decide

/-- No two rows of the opcode map have the same opcode. -/
theorem opcodeMap_pairwise : opcodeMap.Pairwise fun a b => a.1 ≠ b.1 := by decide

/-- A format N row of the opcode map names a command with that opcode and no operand. -/
theorem opForm_n {op : BitVec 8} {i : Instr} (h : opForm? op = some (.n i)) :
    i.opcode = op ∧ i.rBits = 0 ∧ i.immBits = 0 ∧ i.wf = true := by
  obtain ⟨l1, l2, hl, _⟩ := List.lookup_eq_some_iff.mp h
  have hm : (op, OpForm.n i) ∈ opcodeMap := by rw [hl]; simp
  have hall : ∀ row ∈ opcodeMap, ∀ j, row.2 = .n j →
      j.opcode = row.1 ∧ j.rBits = 0 ∧ j.immBits = 0 ∧ j.wf = true := by
    intro row hr j hj
    simp only [opcodeMap, List.mem_cons, List.not_mem_nil, or_false] at hr
    rcases hr with rfl | rfl | rfl | rfl | rfl | rfl | rfl | rfl | rfl | rfl | rfl | rfl | rfl | rfl
    all_goals first | (cases hj; decide) | cases hj
  exact hall _ hm i rfl

end Sys2Proof
end

