-- ==== Sys2Proof/Laws/PerInstr.lean ====
section
/-! SUPPORT. What is said of each command, constructor by constructor. -/

namespace Sys2Proof.Laws.EncodedFields

/-- The word of a command carries the command's opcode, register index and immediate in their fields,
and its reserved field is zero (rules R80, R81). -/
def Statement (i : Instr) : Prop :=
  opField (encode i) = i.opcode ∧ rField (encode i) = i.rBits ∧ zField (encode i) = 0 ∧
    immField (encode i) = i.immBits

theorem all (i : Instr) : Statement i :=
  ⟨opField_commandWord _ _ _, rField_commandWord _ _ _, zField_commandWord _ _ _,
    immField_commandWord _ _ _⟩

theorem nop : Statement .nop := all _
theorem set (r : Reg) (imm : Word) : Statement (.set r imm) := all _
theorem get (r : Reg) : Statement (.get r) := all _
theorem rst : Statement .rst := all _
theorem acc : Statement .acc := all _
theorem walk : Statement .walk := all _
theorem seg : Statement .seg := all _
theorem fin : Statement .fin := all _
theorem psh : Statement .psh := all _
theorem hdr : Statement .hdr := all _
theorem c4open : Statement .c4open := all _
theorem c6open : Statement .c6open := all _
theorem cclose : Statement .cclose := all _
theorem cverify : Statement .cverify := all _

end Sys2Proof.Laws.EncodedFields
end

