-- ==== Sys2Proof/Laws/Walk.lean ====
section
/-! SUPPORT. Feeding segments to a walk: what a sequence of SEGI pseudo-instructions leaves, by
induction on the segments. -/

namespace Sys2Proof.Machine

/-- What feeding segments leaves alone: everything but SUM, PEND, SKIP, REM, ADDR and LEN. -/
def FedFrom (s t : State) : Prop :=
  t.off = s.off ∧ t.size = s.size ∧ t.haddr = s.haddr ∧ t.hlen = s.hlen ∧ t.coff = s.coff ∧
  t.proto = s.proto ∧ t.ulen = s.ulen ∧
  t.src0 = s.src0 ∧ t.src1 = s.src1 ∧ t.src2 = s.src2 ∧ t.src3 = s.src3 ∧
  t.dst0 = s.dst0 ∧ t.dst1 = s.dst1 ∧ t.dst2 = s.dst2 ∧ t.dst3 = s.dst3 ∧
  t.fault = s.fault ∧ t.cause = s.cause ∧ t.finfo = s.finfo ∧
  t.mem = s.mem ∧ t.input = s.input ∧ t.pos = s.pos ∧ t.port = s.port ∧ t.received = s.received

theorem FedFrom.refl (s : State) : FedFrom s s := by simp [FedFrom]

theorem FedFrom.trans {s t u : State} (h : FedFrom s t) (h' : FedFrom t u) : FedFrom s u := by
  simp only [FedFrom] at *
  simp only [h', h, and_self]

theorem execAll_cons_next {i : Instr} {is : List Instr} {s t : State} (h : exec i s = .next t) :
    execAll (i :: is) s = execAll is t := by
  simp [execAll, h]

theorem execAll_append {is js : List Instr} {s t : State} (h : execAll is s = .next t) :
    execAll (is ++ js) s = execAll js t := by
  induction is generalizing s with
  | nil => cases h; rfl
  | cons i is ih =>
    simp only [List.cons_append, execAll] at h ⊢
    split at h
    · exact ih h
    · cases h
    · cases h

/-- A SET of a full-width operand register always completes. -/
theorem exec_set_next {s : State} {r : Reg} {v : Word} (hf : s.fault = false)
    (hw : r.writable = true) (hv : r.fits v = true) :
    exec (.set r v) s = .next (s.writeReg r v) := by
  simp [exec, execSet, unlessFaulted_of_clear _ hf, setViolation?, hw, hv]

/-- Every 32-bit value fits a 32-bit register. -/
theorem fits_of_width {r : Reg} (h : r.width = 32) (v : Word) : r.fits v = true := by
  unfold Reg.fits
  rw [h]
  exact decide_eq_true v.isLt

/-- The bytes of a segment that one SEG takes. -/
def takenOf (skip rem : Nat) (bs : List Byte) : List Byte :=
  (bs.drop (min skip bs.length)).take (min rem (bs.length - min skip bs.length))

theorem holdsBytes_drop_take {m : Memory} {a : Nat} {bs : List Byte} (h : HoldsBytes m a bs)
    (p q : Nat) : HoldsBytes m (a + p) ((bs.drop p).take q) := by
  intro k b hk
  rw [List.getElem?_take] at hk
  split at hk
  · rw [List.getElem?_drop] at hk
    rw [Nat.add_assoc]
    exact h _ _ hk
  · cases hk

theorem takenOf_length (skip rem : Nat) (bs : List Byte) :
    (takenOf skip rem bs).length = min rem (bs.length - min skip bs.length) := by
  simp only [takenOf, List.length_take, List.length_drop]
  omega

/-- The selection of a stream splits at a segment boundary into what the first SEG takes and what is
left for the rest, with the counters the first SEG leaves. -/
theorem selection_append (skip rem : Nat) (a b : List Byte) :
    takenOf skip rem (a ++ b) =
      takenOf skip rem a ++
        takenOf (skip - min skip a.length) (rem - min rem (a.length - min skip a.length)) b := by
  have e : ∀ (k r : Nat) (l : List Byte), takenOf k r l = (l.drop k).take r := by
    intro k r l
    unfold takenOf
    by_cases h : k ≤ l.length
    · rw [Nat.min_eq_left h, ← List.length_drop, ← List.take_eq_take_min]
    · rw [List.drop_of_length_le (i := min k l.length) (by omega),
        List.drop_of_length_le (i := k) (by omega)]
      simp
  rw [e, e, e, List.drop_append, List.take_append, List.length_drop]
  congr 1
  by_cases h : skip ≤ a.length
  · rw [show skip - a.length = 0 by omega, show skip - min skip a.length = 0 by omega]
    rw [show rem - min rem (a.length - min skip a.length) = rem - (a.length - skip) by omega]
  · rw [show skip - min skip a.length = skip - a.length by omega]
    rw [show rem - min rem (a.length - min skip a.length) = rem - (a.length - skip) by omega]

/-- One SEGI: the taken bytes pass through the pairing machine and the counters go down. -/
theorem segi_next {s : State} {a n : Word} {bs : List Byte} (hf : s.fault = false)
    (hr : memRead s.mem a.toNat n.toNat = .ok bs) :
    ∃ t, execAll [.set .addr a, .set .len n, .seg] s = .next t ∧ FedFrom s t ∧
      t.pairing = run s.pairing (takenOf s.skip.toNat s.rem.toNat bs) ∧
      t.skip.toNat = s.skip.toNat - min s.skip.toNat bs.length ∧
      t.rem.toNat = s.rem.toNat - min s.rem.toNat (bs.length - min s.skip.toNat bs.length) := by
  obtain ⟨hle, hl, hh⟩ : a.toNat + n.toNat ≤ 2 ^ 32 ∧ bs.length = n.toNat ∧
      HoldsBytes s.mem a.toNat bs := by
    rcases memRead_cases s.mem a.toNat n.toNat with ⟨_, h⟩ | ⟨_, x, _, h⟩ | ⟨h1, bs', h2, h3, h⟩ <;>
      rw [h] at hr <;> cases hr
    exact ⟨h1, h2, h3⟩
  rw [execAll_cons_next (exec_set_next hf rfl (fits_of_width rfl a)),
    execAll_cons_next (exec_set_next (by simpa using hf) rfl (fits_of_width rfl n))]
  set u := (s.writeReg .addr a).writeReg .len n with hu
  have hks : u.segSkip = min s.skip.toNat bs.length := by rw [hl]; rfl
  have hkt : u.segTake = min s.rem.toNat (bs.length - min s.skip.toNat bs.length) := by
    rw [hl]; rfl
  have hread : u.readTaken = .ok (takenOf s.skip.toNat s.rem.toNat bs) := by
    have hh' : HoldsBytes u.mem (u.addr.toNat + u.segSkip) (takenOf s.skip.toNat s.rem.toNat bs) := by
      rw [hks]; exact holdsBytes_drop_take hh _ _
    rcases readTaken_cases u with ⟨h, _⟩ | ⟨_, x, ⟨x1, x2, x3, _⟩, _⟩ | ⟨_, cs, h1, h2, h⟩
    · exact absurd h (by show ¬ 2 ^ 32 < a.toNat + n.toNat; omega)
    · obtain ⟨k, rfl⟩ := Nat.exists_eq_add_of_le x1
      have hk : k < (takenOf s.skip.toNat s.rem.toNat bs).length := by
        rw [takenOf_length, ← hkt]; omega
      rw [hh' k _ (List.getElem?_eq_getElem hk)] at x3
      cases x3
    · rw [h]
      have e1 := readBytes_ok_iff.mpr ⟨h1, h2⟩
      have e2 := readBytes_ok_iff.mpr ⟨(takenOf_length s.skip.toNat s.rem.toNat bs).trans hkt.symm, hh'⟩
      rw [e1] at e2
      exact e2
  refine ⟨(u.withPairing (run s.pairing (takenOf s.skip.toNat s.rem.toNat bs))).withSelection
    (BitVec.ofNat 32 (u.skip.toNat - u.segSkip)) (BitVec.ofNat 32 (u.rem.toNat - u.segTake)),
    ?_, ?_, rfl, ?_, ?_⟩
  · simp only [execAll, exec, execSeg,
      unlessFaulted_of_clear _ (show u.fault = false by simpa [hu] using hf), hread, settle_ok]
    rfl
  · simp [FedFrom, hu, State.writeReg]
  · have h := u.skip.isLt
    rw [withSelection_skip, BitVec.toNat_ofNat, hks, Nat.mod_eq_of_lt (by omega)]
    rfl
  · have h := u.rem.isLt
    rw [withSelection_rem, BitVec.toNat_ofNat, hkt, Nat.mod_eq_of_lt (by omega)]
    rfl

/-- Feeding any segments: what is left of the walk depends on their concatenation alone. -/
theorem feed_next : ∀ (segs : List (Word × Word)) {s : State} {stream : List Byte},
    s.fault = false → streamOf s.mem segs = .ok stream →
    ∃ t, execAll (feed segs) s = .next t ∧ FedFrom s t ∧
      t.pairing = run s.pairing (takenOf s.skip.toNat s.rem.toNat stream) ∧
      t.skip.toNat = s.skip.toNat - min s.skip.toNat stream.length ∧
      t.rem.toNat = s.rem.toNat - min s.rem.toNat (stream.length - min s.skip.toNat stream.length)
  | [], s, stream, hf, hs => by
    cases hs
    exact ⟨s, rfl, FedFrom.refl s, by simp [takenOf], by simp, by simp⟩
  | (a, n) :: segs, s, stream, hf, hs => by
    simp only [streamOf] at hs
    split at hs
    · cases hs
    · next bs hr =>
      split at hs
      · cases hs
      · next rest hrest =>
        cases hs
        obtain ⟨t, ht, hfed, hp, hsk, hre⟩ := segi_next hf hr
        have hmem : t.mem = s.mem := by simp only [FedFrom] at hfed; simp only [hfed]
        have hft : t.fault = false := by simp only [FedFrom] at hfed; simp only [hfed, hf]
        obtain ⟨u, hu, hfed', hp', hsk', hre'⟩ := feed_next segs hft (by rw [hmem]; exact hrest)
        refine ⟨u, ?_, hfed.trans hfed', ?_, ?_, ?_⟩
        · show execAll ([.set .addr a, .set .len n, .seg] ++ feed segs) s = _
          rw [execAll_append ht, hu]
        · rw [hp', hp, hsk, hre, selection_append, run_append]
        · rw [hsk', hsk, List.length_append]; omega
        · rw [hre', hre, hsk, List.length_append]; omega

end Sys2Proof.Machine
end

