-- ==== Sys2Proof/Tests/Slice0.lean ====
section
/-! SUPPORT. The model's own tests: expected values from spec/95_test_vectors.md and the examples of the
command rules, and a witness for the hypotheses of every statement. -/

namespace Sys2Proof.Tests

open Sys2Proof Sys2Proof.Machine

/-! ### Helpers -/

/-- The next state, if there is one. -/
def after (o : Host.Outcome State Fault Refusal) : Option State :=
  match o with
  | .next t => some t
  | .fault _ => none
  | .refused _ => none

/-- Memory with the given bytes from an address up. -/
def bytesAt : Nat → List Byte → Memory
  | _, [] => []
  | a, b :: bs => (a, b) :: bytesAt (a + 1) bs

/-- What the next step leaves, as observed by `f`, when the host issues `w` in state `s`. -/
def stepWord {α : Type} (s : State) (w : Nat) (f : State → α) : Option α :=
  (after (step (s.withFetchWord 64 w))).map f

/-- STATUS as GET reads it. -/
def status (s : State) : Word := s.readReg .status

/-! ### Well-formedness and decoding -/

theorem test_wf_refuses_read_only : Instr.wf (.set .pend 1) = false := by decide
theorem test_wf_refuses_wide_sum : Instr.wf (.set .sum 0x10000) = false := by decide
theorem test_wf_refuses_wide_proto : Instr.wf (.set .proto 0x100) = false := by decide
theorem test_wf_accepts : Instr.wf (.set .sum 0xFFFF) = true ∧ Instr.wf (.get .finfo) = true := by decide

-- rule R83's match words, written out in bits: op, r, z, imm
theorem test_decode_nop : decodeTableWord 64
    0b00000000_00000_0000000000000000000_00000000000000000000000000000000 = some .nop := by decide
theorem test_decode_set : decodeTableWord 64
    0b00000001_10111_0000000000000000000_00000000000000000000000000000001 = some (.set .dst3 1) := by decide
theorem test_decode_get : decodeTableWord 64
    0b00000010_01101_0000000000000000000_00000000000000000000000000000000 = some (.get .csum) := by decide
theorem test_decode_rst : decodeTableWord 64
    0b00000011_00000_0000000000000000000_00000000000000000000000000000000 = some .rst := by decide
theorem test_decode_acc : decodeTableWord 64
    0b00010000_00000_0000000000000000000_00000000000000000000000000000000 = some .acc := by decide
theorem test_decode_walk : decodeTableWord 64
    0b00010001_00000_0000000000000000000_00000000000000000000000000000000 = some .walk := by decide
theorem test_decode_seg : decodeTableWord 64
    0b00010010_00000_0000000000000000000_00000000000000000000000000000000 = some .seg := by decide
theorem test_decode_fin : decodeTableWord 64
    0b00010011_00000_0000000000000000000_00000000000000000000000000000000 = some .fin := by decide
theorem test_decode_psh : decodeTableWord 64
    0b00100000_00000_0000000000000000000_00000000000000000000000000000000 = some .psh := by decide
theorem test_decode_hdr : decodeTableWord 64
    0b00100001_00000_0000000000000000000_00000000000000000000000000000000 = some .hdr := by decide
theorem test_decode_c4open : decodeTableWord 64
    0b00110000_00000_0000000000000000000_00000000000000000000000000000000 = some .c4open := by decide
theorem test_decode_c6open : decodeTableWord 64
    0b00110001_00000_0000000000000000000_00000000000000000000000000000000 = some .c6open := by decide
theorem test_decode_cclose : decodeTableWord 64
    0b00110010_00000_0000000000000000000_00000000000000000000000000000000 = some .cclose := by decide
theorem test_decode_cverify : decodeTableWord 64
    0b00110011_00000_0000000000000000000_00000000000000000000000000000000 = some .cverify := by decide

-- 95_test_vectors.md E1 and Y3: STATUS and FINFO after single words from reset
def latchAfter (w : Nat) : Option (Word × Word) :=
  stepWord State.reset w fun t => (status t, t.finfo)

theorem test_E1_illOp : latchAfter 0x2200000100000000 = some (0x0109, 0x22000001) := by decide
theorem test_E1_all_ones : latchAfter 0xFFFFFFFFFFFFFFFF = some (0x0109, 0xFFFFFFFF) := by decide
theorem test_E1_nop_r : latchAfter 0x0008000000000000 = some (0x0209, 0x00080000) := by decide
theorem test_E1_nop_imm : latchAfter 0x0000000000000001 = some (0x0209, 0x00000000) := by decide
theorem test_E1_acc_z50 : latchAfter 0x1004000000000000 = some (0x0209, 0x10040000) := by decide
theorem test_E1_get_24 : latchAfter 0x02C0000000000000 = some (0x0309, 0x02C00000) := by decide
theorem test_E1_set_24_z : latchAfter 0x01C0000100000005 = some (0x0209, 0x01C00001) := by decide
theorem test_E1_set_status : latchAfter 0x0170000000000000 = some (0x0309, 0x01700000) := by decide
theorem test_E1_set_pend_wide : latchAfter 0x01080000FFFFFFFF = some (0x0309, 0x01080000) := by decide
theorem test_Y3_set_sum_wide : latchAfter 0x0100000000010000 = some (0x0409, 0x00010000) := by decide
theorem test_Y3_set_proto_wide : latchAfter 0x0158000000000100 = some (0x0409, 0x00000100) := by decide
theorem test_Y3_set_sum : latchAfter 0x010000000000FFFF = some (0x000A, 0) := by decide

/-! ### Arithmetic (K1, K2, A1, A2) -/

theorem test_K1_ocadd :
    [ocadd 0 0, ocadd 0 0xFFFF, ocadd 0xFFFF 0xFFFF, ocadd 0xFFFF 1, ocadd 0x8000 0x8000,
     ocadd 0xFFFE 1, ocadd 0xFFFE 2, ocadd 0x1234 0xEDCB, ocadd 0x050E 0xFAF1, ocadd 0xABCD 0] =
    [0, 0xFFFF, 0xFFFF, 1, 1, 0xFFFF, 1, 0xFFFF, 0xFFFF, 0xABCD] := by decide

theorem test_K2_fold :
    [0, 0xFFFF, 0x10000, 0x1FFFE, 0x1FFFF, 0x129C6, 0x2FFFD].map canon =
    [0x0000, 0xFFFF, 0x0001, 0xFFFF, 0x0001, 0x29C7, 0xFFFF] ∧
    [0, 0xFFFF, 0x10000, 0x1FFFE, 0x1FFFF, 0x129C6, 0x2FFFD].map (foldPasses 3) =
    [0x0000, 0xFFFF, 0x0001, 0xFFFF, 0x0001, 0x29C7, 0xFFFF] := by decide

theorem test_A2_csum :
    [csum [] 0xFFFF, csum [0, 0, 0] 0, csum [0, 0, 0, 0] 0xFFFF, csum [0xFF, 0xFF] 1,
     csum [0xFF, 0xFF, 0, 1] 0, csum [0xAB] 0, csum [0xFF] 0x0100, csum [0x12, 0x34, 0x56] 0xFFFF,
     csum [1, 9, 0, 5, 4] 0xFAF1] =
    [0xFFFF, 0, 0xFFFF, 1, 1, 0xAB00, 1, 0x6834, 0xFFFF] := by decide

theorem test_A1_seven_bytes : csum [3, 10, 17, 24, 31, 38, 45] 0x1234 = 0x727C := by decide

/-! ### ACC, WALK, SEG, FIN -/

/-- The state of P1 before its ACC. -/
def p1 : State :=
  { State.reset with mem := bytesAt 0x1000 [1, 9, 0, 5, 4], addr := 0x1000, len := 5 }

/-- A5's last row: 0x1002 does not answer. -/
def a5 : State :=
  { p1 with mem := [(0x1000, 1), (0x1001, 9), (0x1003, 5), (0x1004, 4)] }

-- P1 step 4
theorem test_P1_acc : stepWord p1 0x1000000000000000 (fun t => (t.sum, t.pend)) =
    some (0x050E, none) := by decide
-- A5, fourth row
theorem test_A5_acc_bus : stepWord a5 0x1000000000000000 (fun t => (status t, t.finfo, t.sum)) =
    some (0x0609, 0x00001002, 0) := by decide

/-- The walk of R133's example, before its SEG. -/
def segState : State :=
  { State.reset with
    mem := bytesAt 0x2101 [98, 1, 9, 0, 5, 4], sum := 0x004D, skip := 1, rem := 11, addr := 0x2101, len := 6 }

-- R131's example
theorem test_walk : stepWord { State.reset with off := 7, size := 11, sum := 77, pend := some 3 }
    0x1100000000000000 (fun t => (t.skip, t.rem, t.pend, t.sum)) = some (7, 11, none, 77) := by decide
-- R133's example
theorem test_seg : stepWord segState 0x1200000000000000 (fun t => (t.sum, t.pend, t.skip, t.rem)) =
    some (0x015B, some 4, 0, 6) := by decide
-- W12 (b): the selection would take two unpopulated bytes
theorem test_W12_seg_bus : stepWord { State.reset with
      mem := bytesAt 0x2000 [77, 11, 33, 0, 55, 44], sum := 0x1111, rem := 8, addr := 0x2000, len := 8 }
    0x1200000000000000 (fun t => (status t, t.finfo, t.sum, t.rem, t.pend)) =
    some (0x0601, 0x00002006, 0x1111, 8, none) := by decide
-- R135's example
theorem test_fin : stepWord { State.reset with sum := 0x0968, pend := some 123 }
    0x1300000000000000 (fun t => (t.sum, t.pend)) = some (0x8468, none) := by decide

/-! ### PSH, HDR, C4OPEN, C6OPEN, CCLOSE, CVERIFY -/

-- H4
theorem test_H4_psh : stepWord { State.reset with
      src0 := 0x20010DB8, src3 := 1, dst0 := 0x20010DB8, dst1 := 0x00010002, dst2 := 0x00030004,
      dst3 := 0x00050006, ulen := 0x00012345, proto := 17, sum := 0x1234 }
    0x2000000000000000 (fun t => t.sum) = some 0x7EDF := by decide

/-- The header of CM1 to CM6. -/
def cm : State :=
  { State.reset with mem := bytesAt 0x3000 [8, 0, 0xAB, 0xCD, 0x12, 0x34, 0, 1], haddr := 0x3000, hlen := 8 }

theorem test_CM1_hdr : stepWord cm 0x2100000000000000 (fun t => t.sum) = some 0x1A35 := by decide
theorem test_CM4_hdr_odd : stepWord { cm with coff := 3 } 0x2100000000000000 (fun t => t.sum) =
    some 0xB335 := by decide
-- R163's example
theorem test_c4open : stepWord { State.reset with size := 5, sum := 9, pend := some 1, skip := 3 }
    0x3000000000000000 (fun t => (t.sum, t.pend, t.skip, t.rem)) = some (0, none, 0, 5) := by decide

/-- P4 before its step 12. -/
def p4 : State :=
  { State.reset with
    src0 := 0xFE800000, src3 := 1, dst0 := 0xFF020000, dst3 := 1, hlen := 8, size := 5 }

theorem test_P4_c6open : stepWord p4 0x3100000000000000 (fun t => (t.sum, t.pend, t.rem)) =
    some (0xFDCC, none, 5) := by decide
-- CM13
theorem test_CM13_c6open_long : stepWord { State.reset with sum := 0x42, hlen := 0xFFFFFFFF, size := 1 }
    0x3100000000000000 (fun t => (status t, t.finfo, t.sum, t.rem)) =
    some (0x0409, 0, 0x42, 0) := by decide

/-- P3 before its CCLOSE: the payload has been walked. -/
def p3 : State := { cm with sum := 0xC4C6, pend := some 0x65, size := 5 }

theorem test_P3_cclose : stepWord p3 0x3200000000000000 (fun t => (t.sum, t.pend, t.csumView)) =
    some (0x43FC, none, 0xBC03) := by decide
-- CM12: the header's last byte does not answer
theorem test_CM12_cclose_bus : stepWord { p3 with mem := bytesAt 0x3000 [8, 0, 0xAB, 0xCD, 0x12, 0x34, 0] }
    0x3200000000000000 (fun t => (status t, t.finfo, t.sum, t.pend)) =
    some (0x060D, 0x00003007, 0xC4C6, some 0x65) := by decide
-- P3 step 20: the checksum has been stored
theorem test_P3_cverify : stepWord { p3 with mem := bytesAt 0x3000 [8, 0, 0xBC, 0x03, 0x12, 0x34, 0, 1] }
    0x3300000000000000 (fun t => (t.sum, t.pend, status t)) = some (0xFFFF, none, 0x000A) := by decide

/-! ### NOP, SET, GET, RST -/

/-- P5 after its step 4. -/
def p5 : State :=
  { p1 with sum := 0x0102, fault := true, cause := 1, finfo := 0x15000000 }

theorem test_nop : stepWord p5 0 (fun t => (t.sum, t.finfo, t.port)) =
    some (0x0102, 0x15000000, []) := by decide
-- Y2
theorem test_Y2_set_proto : stepWord State.reset 0x0158000000000001 (fun t => (t.proto, t.ulen)) =
    some (1, 0) := by decide
-- P5 step 6
theorem test_P5_set_discarded : stepWord p5 0x0128000000000004 (fun t => (t.len, t.finfo)) =
    some (5, 0x15000000) := by decide
-- P2 step 13
theorem test_P2_get_pend : stepWord { State.reset with pend := some 4 } 0x0208000000000000
    (fun t => t.port) = some [⟨true, 0x104⟩] := by decide
-- P5 step 9
theorem test_P5_get_csum : stepWord p5 0x0268000000000000 (fun t => t.port) =
    some [⟨false, 0⟩] := by decide
-- P5 steps 13 and 15: words that are not obeyed while faulted
theorem test_P5_discarded : stepWord p5 0x02C0000000000000 (fun t => (t.port, t.cause)) = some ([], 1) ∧
    stepWord p5 0x0300000000000001 (fun t => (t.fault, t.cause)) = some (true, 1) := by decide
-- P5 step 17
theorem test_P5_rst : stepWord p5 0x0300000000000000 (fun t => (status t, t.sum, t.len, t.coff, t.pos)) =
    some (0x0008, 0, 0, 2, 1) := by decide

/-! ### Memory and the host's moves -/

theorem test_memory_wf_refuses_unsorted : Memory.wf [(5, 1), (4, 2)] = false := by decide
theorem test_memory_wf_refuses_outside : Memory.wf [(0x100000000, 1)] = false := by decide
theorem test_memory_put : Memory.put [(4, 1), (6, 2)] 5 (some 9) = [(4, 1), (5, 9), (6, 2)] ∧
    Memory.put [(4, 1), (6, 2)] 4 none = [(6, 2)] := by decide
-- R220: the reset input empties the port
theorem test_reset_input : (after (step { p5 with input := [.reset], port := [⟨true, 1⟩] })).map
    (fun t => (t.sum, t.fault, t.coff, t.port)) = some (0, false, 2, []) := by decide

/-! ### Witnesses: for every statement with hypotheses, states and operands that meet them -/

theorem holds_of_read {m : Memory} {a n : Nat} {bs : List Byte} (h : readBytes m a n = .ok bs) :
    HoldsBytes m a bs := (readBytes_ok_iff.mp h).2

/-- `s` with one command word as the host's only move. -/
def issuing (s : State) (w : Cmd) : State := { s with input := [.command w] }

theorem witness_DecodeOfEncode : Instr.wf (.set .sum 0xFFFF) = true ∧ Instr.wf (.get .dst3) = true := by
  decide
theorem witness_EncodeOfDecode : decode 0x0158000000000080 = .ok (.set .proto 0x80) := rfl
-- one word for each of the eight ends of R84's chain
theorem witness_WordsAreChecked : State.reset.fault = false ∧
    [0x0400000000000000, 0x0000000100000000, 0x0008000000000000, 0x0200000000000001, 0x02C0000000000000,
      0x0108000000000000, 0x0100000000010000, 0x010000000000FFFF].map
      (fun w => latchAfter w) =
    [some (0x0109, 0x04000000), some (0x0209, 1), some (0x0209, 0x00080000), some (0x0209, 0x02000000),
      some (0x0309, 0x02C00000), some (0x0309, 0x01080000), some (0x0409, 0x10000), some (0x000A, 0)] := by
  decide
theorem witness_StepRuns : (issuing p1 0x1000000000000000).input = .command 0x1000000000000000 :: [] ∧
    decode 0x1000000000000000 = .ok .acc := ⟨rfl, rfl⟩
theorem witness_Ocadd_zeros : ocadd 0 0 = 0 ∧ ocadd 0xFFFF 0xFFFF = 0xFFFF := by decide
theorem witness_CsumChains : [1, 9].length % 2 = 0 ∧ ([] : List Byte).length % 2 = 0 := by decide
theorem witness_Nop : (0x0000000000000001 : Cmd).toNat / 2 ^ 56 = 0 ∧ (0x0000000000000001 : Cmd) ≠ 0 := by
  decide
theorem witness_Set_unassigned : 24 ≤ (24 : BitVec 5).toNat ∧ 24 ≤ (31 : BitVec 5).toNat := by decide
theorem witness_Set_read_only : State.reset.fault = false ∧
    Reg.finfo ∈ [Reg.pend, .skip, .rem, .csum, .status, .finfo] := by decide
theorem witness_Set_too_wide : (2 ^ 16 ≤ (0x10000 : Word).toNat) ∧ 2 ^ 8 ≤ (0x100 : Word).toNat := by decide
theorem witness_Set_writes : Reg.sum ∉ [Reg.pend, .skip, .rem, .csum, .status, .finfo] ∧
    (0xFFFF : Word).toNat < 2 ^ 16 ∧ (0xFF : Word).toNat < 2 ^ 8 := by decide
theorem witness_Get : p5.fault = true ∧ State.reset.fault = false ∧ (Reg.status ≠ .sum ∧ Reg.status ≠ .csum) := by
  decide
theorem witness_Get_unassigned : 24 ≤ (24 : BitVec 5).toNat ∧
    (issuing p5 (commandWord 0x02 24 0)).input = .command (commandWord 0x02 24 0) :: [] := ⟨by decide, rfl⟩
theorem witness_Rst : (0x0300000000000001 : Cmd).toNat / 2 ^ 56 = 0x03 ∧
    (0x0300000000000001 : Cmd) ≠ 0x0300000000000000 ∧
    (issuing p5 0x0300000000000001).input = .command 0x0300000000000001 :: [] := ⟨by decide, by decide, rfl⟩

-- ACC: the range that reaches one past the top, the range with a hole, the whole range, the top byte
theorem witness_Acc_wrap : let s : State := { p1 with addr := 0xFFFFFFF0, len := 0x11 }
    s.fault = false ∧ 2 ^ 32 < s.addr.toNat + s.len.toNat := by decide
theorem witness_Acc_bus : a5.fault = false ∧ a5.addr.toNat + a5.len.toNat ≤ 2 ^ 32 ∧
    FirstUnanswered a5.mem a5.addr.toNat a5.len.toNat 0x1002 := by
  refine ⟨rfl, by decide, by decide, by decide, by decide, fun y h1 h2 => ?_⟩
  have h1 : 0x1000 ≤ y := h1
  interval_cases y <;> decide
theorem witness_Acc_sum : p1.fault = false ∧ p1.addr.toNat + p1.len.toNat ≤ 2 ^ 32 ∧
    [1, 9, 0, 5, 4].length = p1.len.toNat ∧ HoldsBytes p1.mem p1.addr.toNat [1, 9, 0, 5, 4] :=
  ⟨rfl, by decide, by decide, holds_of_read (n := 5) rfl⟩
theorem witness_Acc_top : let s : State := { p1 with addr := 0xFFFFFFFF, len := 1, mem := [(0xFFFFFFFF, 0x5A)] }
    s.addr.toNat + s.len.toNat ≤ 2 ^ 32 ∧ [0x5A].length = s.len.toNat ∧
    HoldsBytes s.mem s.addr.toNat [0x5A] :=
  ⟨by decide, by decide, holds_of_read (n := 1) rfl⟩
theorem witness_Walk : segState.fault = false := rfl
-- SEG: a wrapping segment, a hole among the taken bytes, the taken bytes of R133's example
theorem witness_Seg_wrap : let s : State := { segState with addr := 0xFFFFFFFF, len := 2 }
    s.fault = false ∧ 2 ^ 32 < s.addr.toNat + s.len.toNat := by decide
theorem witness_Seg_bus : let s : State := { segState with mem := bytesAt 0x2101 [98, 1, 9] }
    s.addr.toNat + s.len.toNat ≤ 2 ^ 32 ∧
    FirstUnanswered s.mem (s.addr.toNat + min s.skip.toNat s.len.toNat)
      (min s.rem.toNat (s.len.toNat - min s.skip.toNat s.len.toNat)) 0x2104 := by
  refine ⟨by decide, by decide, by decide, by decide, fun y h1 h2 => ?_⟩
  have h1 : 0x2102 ≤ y := h1
  interval_cases y <;> decide
theorem witness_Seg_takes : segState.addr.toNat + segState.len.toNat ≤ 2 ^ 32 ∧
    [1, 9, 0, 5, 4].length =
      min segState.rem.toNat (segState.len.toNat - min segState.skip.toNat segState.len.toNat) ∧
    HoldsBytes segState.mem (segState.addr.toNat + min segState.skip.toNat segState.len.toNat)
      [1, 9, 0, 5, 4] :=
  ⟨by decide, by decide, holds_of_read (n := 5) rfl⟩
theorem witness_Fin : p3.fault = false ∧ p3.pend = some 0x65 ∧ cm.pend = none := ⟨rfl, rfl, rfl⟩
theorem witness_Psh_C4open : p4.fault = false := rfl
theorem witness_PseudoHeaderBytes : 0 < 16 ∧ 15 < 16 ∧ p4.srcBytes.length = 16 ∧ p4.dstBytes.length = 16 := by
  decide
theorem witness_Masked : ([8, 0, 0xAB] : List Byte)[2]? = some 0xAB := by decide
-- HDR, CCLOSE, CVERIFY: a wrapping header, a hole, the header of CM1
theorem witness_Header_wrap : let s : State := { cm with haddr := 0x80000000, hlen := 0x80000001 }
    s.fault = false ∧ 2 ^ 32 < s.haddr.toNat + s.hlen.toNat := by decide
theorem witness_Header_bus : let s : State := { cm with mem := bytesAt 0x3000 [8, 0] }
    s.fault = false ∧ s.haddr.toNat + s.hlen.toNat ≤ 2 ^ 32 ∧
    FirstUnanswered s.mem s.haddr.toNat s.hlen.toNat 0x3002 := by
  refine ⟨rfl, by decide, by decide, by decide, by decide, fun y h1 h2 => ?_⟩
  have h1 : 0x3000 ≤ y := h1
  interval_cases y <;> decide
theorem witness_Header_sum : cm.fault = false ∧ cm.haddr.toNat + cm.hlen.toNat ≤ 2 ^ 32 ∧
    [8, 0, 0xAB, 0xCD, 0x12, 0x34, 0, 1].length = cm.hlen.toNat ∧
    HoldsBytes cm.mem cm.haddr.toNat [8, 0, 0xAB, 0xCD, 0x12, 0x34, 0, 1] :=
  ⟨rfl, by decide, by decide, holds_of_read (n := 8) rfl⟩
-- C6OPEN: the longest length that fits and the first that does not
theorem witness_C6open : (0xFFFFFFFF : Word).toNat = (0xFFFFFFFE : Word).toNat + (1 : Word).toNat ∧
    2 ^ 32 ≤ (0xFFFFFFFF : Word).toNat + (1 : Word).toNat := by decide
theorem witness_MemRead : 0x1000 < 2 ^ 32 ∧ 5 < 2 ^ 32 ∧ 2 ^ 32 < 0xFFFFFFF0 + 0x11 ∧
    0x1000 + 5 ≤ 2 ^ 32 ∧ FirstUnanswered a5.mem 0x1000 5 0x1002 ∧ HoldsBytes p1.mem 0x1000 [1, 9, 0, 5, 4] :=
  ⟨by decide, by decide, by decide, by decide, witness_Acc_bus.2.2, witness_Acc_sum.2.2.2⟩
theorem witness_FaultEntry : ∃ t, step (issuing p1 0x1500000000000000) = .next t ∧
    (issuing p1 0x1500000000000000).fault = false ∧ t.fault = true := ⟨_, rfl, rfl, rfl⟩
-- R202: a well-formed RST, a GET of the last index, a GET of the first unassigned index
theorem witness_Faulted : p5.fault = true ∧
    stepWord p5 0x0300000000000000 (fun t => t.fault) = some false ∧
    stepWord p5 0x02B8000000000000 (fun t => t.port) = some [⟨true, 0⟩] ∧
    stepWord p5 0x02C0000000000000 (fun t => t.port) = some [] := by decide
theorem witness_OnlyReset : ∃ t, p5.fault = true ∧ step (issuing p5 0x0300000000000000) = .next t ∧
    t.fault = false := ⟨_, rfl, rfl, rfl⟩
theorem witness_OnlyReset_input : ∃ t, step { p5 with input := [.reset] } = .next t ∧ t.fault = false :=
  ⟨_, rfl, rfl⟩
theorem witness_CommandsWrite : ∃ t, exec .seg segState = .next t := ⟨_, rfl⟩
-- SET ADDR beside LEN, whose value stays; and an ACC that faults
theorem witness_CommandsWrite_set : ∃ t, exec (.set .addr 7) segState = .next t ∧ Reg.len ≠ .addr ∧
    Reg.len ∉ [Reg.csum, .status, .finfo] ∧ t.fault = segState.fault := ⟨_, rfl, by decide, by decide, rfl⟩
theorem witness_CommandsWrite_fault : ∃ t, exec .acc a5 = .next t ∧ a5.fault = false ∧ t.fault = true :=
  ⟨_, rfl, rfl, rfl⟩
theorem witness_EveryCommandAdvances : ∃ t, step (issuing p1 0x1000000000000000) = .next t := ⟨_, rfl⟩
theorem witness_OnlyGetResponds : (∃ t, step (issuing p5 0x0268000000000000) = .next t) ∧
    decode 0x0268000000000000 = .ok (.get .csum) ∧
    ∀ r, decode 0x1000000000000000 ≠ .ok (.get r) := ⟨⟨_, rfl⟩, rfl, fun r h => by cases h⟩
theorem witness_Invariant : ∃ t, State.Inv p5 ∧ step (issuing p5 0) = .next t :=
  ⟨_, ⟨by decide, (fun h => by cases h), fun _ => ⟨.illOp, rfl⟩⟩, rfl⟩
theorem witness_NonZeroSum : ∃ t, segState.sum ≠ 0 ∧ (∀ r imm, Instr.seg ≠ .set r imm) ∧
    Instr.seg ≠ .psh ∧ Instr.seg ≠ .c4open ∧ Instr.seg ≠ .c6open ∧ Instr.seg ≠ .rst ∧
    exec .seg segState = .next t :=
  ⟨_, by decide, fun _ _ => Instr.noConfusion, by decide, by decide, by decide, by decide, rfl⟩
-- a memory that differs where SEG reads nothing
theorem witness_DependOnly : (∀ a, Reads .seg segState a →
    Memory.read (bytesAt 0x2102 [1, 9, 0, 5, 4]) a = Memory.read segState.mem a) := by
  intro a ha
  have h1 : 0x2102 ≤ a := ha.1
  have h2 : a < 0x2107 := ha.2
  interval_cases a <;> decide
-- a memory that differs in the checksum field alone
theorem witness_HeaderField : let m := bytesAt 0x3000 [8, 0, 1, 2, 0x12, 0x34, 0, 1]
    (∀ a : Nat, a ≠ cm.haddr.toNat + cm.coff.toNat → a ≠ cm.haddr.toNat + cm.coff.toNat + 1 →
      Memory.read m a = Memory.read cm.mem a) ∧
    (∀ a : Nat, (Memory.read m a).isSome = (Memory.read cm.mem a).isSome) := by
  refine ⟨fun a h1 h2 => ?_, fun a => ?_⟩
  · have h1 : a ≠ 0x3002 := h1
    have h2 : a ≠ 0x3003 := h2
    simp [cm, bytesAt, Memory.read, Ne.symm h1, Ne.symm h2]
  · simp only [cm, bytesAt, Memory.read]
    split_ifs <;> rfl
theorem witness_ScalarContract : p1.fault = false ∧
    (0x1000 : Word).toNat + (2 : Word).toNat ≤ 2 ^ 32 ∧ HoldsBytes p1.mem 0x1000 [1, 9] ∧
    (0x1002 : Word).toNat + (3 : Word).toNat ≤ 2 ^ 32 ∧ HoldsBytes p1.mem 0x1002 [0, 5, 4] :=
  ⟨rfl, by decide, holds_of_read (n := 2) rfl, by decide, holds_of_read (n := 3) rfl⟩
-- a walk over three segments, one empty, that clamps
theorem witness_WalkSums : ({ p1 with off := 1, size := 9 } : State).fault = false ∧
    streamOf p1.mem [(0x1000, 2), (0x9999, 0), (0x1002, 3)] = .ok [1, 9, 0, 5, 4] := ⟨rfl, rfl⟩
theorem witness_EmptySelection : State.reset.fault = false ∧ State.reset.size = 0 ∧
    ∀ g ∈ ([(0xFFFFFFFF, 1)] : List (Word × Word)), g.1.toNat + g.2.toNat ≤ 2 ^ 32 := by
  refine ⟨rfl, rfl, fun g hg => ?_⟩
  rw [List.mem_singleton] at hg
  subst hg
  decide

/-- A header and a payload (P3's header, two payload segments). -/
def p3Memory : State :=
  { cm with
    mem := bytesAt 0x3000 [8, 0, 0xAB, 0xCD, 0x12, 0x34, 0, 1] ++ bytesAt 0x3100 [0x61, 0x62] ++
      bytesAt 0x3200 [0x63, 0x64, 0x65]
    size := 5 }

theorem witness_IcmpContracts : p3Memory.fault = false ∧
    (0x3000 : Word).toNat + (8 : Word).toNat ≤ 2 ^ 32 ∧
    HoldsBytes p3Memory.mem 0x3000 [8, 0, 0xAB, 0xCD, 0x12, 0x34, 0, 1] ∧
    streamOf p3Memory.mem [(0x3100, 2), (0x3200, 3)] = .ok [0x61, 0x62, 0x63, 0x64, 0x65] ∧
    p3Memory.size.toNat = 5 ∧ (13 : Word).toNat = (8 : Word).toNat + p3Memory.size.toNat :=
  ⟨rfl, by decide, holds_of_read (n := 8) rfl, rfl, by decide, by decide⟩
theorem witness_CompositionOrder : p3Memory.haddr.toNat + p3Memory.hlen.toNat ≤ 2 ^ 32 ∧
    [8, 0, 0xAB, 0xCD, 0x12, 0x34, 0, 1].length = p3Memory.hlen.toNat := by decide
-- P3's stored checksum: field even and inside, and the memory the host leaves
theorem witness_StoredChecksum : ∃ t, exec .cclose p3 = .next t ∧ p3.coff.toNat % 2 = 0 ∧
    p3.coff.toNat + 1 < p3.hlen.toNat ∧
    ∀ a : Nat, Memory.read (bytesAt 0x3000 [8, 0, 0xBC, 0x03, 0x12, 0x34, 0, 1]) a =
      if a = p3.haddr.toNat + p3.coff.toNat then some (t.csumView.extractLsb' 8 8)
      else if a = p3.haddr.toNat + p3.coff.toNat + 1 then some (t.csumView.extractLsb' 0 8)
      else Memory.read p3.mem a := by
  refine ⟨_, rfl, by decide, by decide, fun a => ?_⟩
  by_cases h1 : a = 0x3002
  · subst h1; decide
  · by_cases h2 : a = 0x3003
    · subst h2; decide
    · rw [if_neg (show ¬ a = p3.haddr.toNat + p3.coff.toNat from h1),
        if_neg (show ¬ a = p3.haddr.toNat + p3.coff.toNat + 1 from h2)]
      simp [p3, cm, bytesAt, Memory.read, Ne.symm h1, Ne.symm h2]
-- the two methods: P3's stored checksum, and the one case in which they differ
theorem witness_Verification : let s : State := { p3 with mem := bytesAt 0x3000 [8, 0, 0xBC, 0x03, 0x12, 0x34, 0, 1] }
    s.fault = false ∧ s.haddr.toNat + s.hlen.toNat ≤ 2 ^ 32 ∧
    HoldsBytes s.mem s.haddr.toNat [8, 0, 0xBC, 0x03, 0x12, 0x34, 0, 1] ∧ s.coff.toNat % 2 = 0 ∧
    ([8, 0, 0xBC, 0x03, 0x12, 0x34, 0, 1] : List Byte)[s.coff.toNat]? = some 0xBC ∧
    ([8, 0, 0xBC, 0x03, 0x12, 0x34, 0, 1] : List Byte)[s.coff.toNat + 1]? = some 0x03 :=
  ⟨rfl, by decide, holds_of_read (n := 8) rfl, by decide, by decide, by decide⟩
theorem witness_Verification_differ :
    let s : State := { cm with mem := bytesAt 0x3000 [0, 0, 0xFF, 0xFF], hlen := 4, sum := 0xFFFF }
    HoldsBytes s.mem s.haddr.toNat [0, 0, 0xFF, 0xFF] ∧
    ([0, 0, 0xFF, 0xFF] : List Byte)[s.coff.toNat]? = some 0xFF ∧
    ([0, 0, 0xFF, 0xFF] : List Byte)[s.coff.toNat + 1]? = some 0xFF ∧
    stepWord s 0x3200000000000000 (fun t => (t.sum, t.csumView)) = some (0xFFFF, 0) ∧
    stepWord s 0x3300000000000000 (fun t => t.vok) = some true :=
  ⟨holds_of_read (n := 4) rfl, by decide, by decide, by decide, by decide⟩
theorem witness_ResetInput : ({ p5 with input := [.reset] } : State).input = .reset :: [] := rfl
theorem witness_SafeAfterReset : Instr.wf .c6open = true ∧ Instr.wf (.set .coff 0xFFFFFFFF) = true := by decide
-- the top address and address 0
theorem witness_HostMemory : Memory.wf p1.mem = true ∧
    ({ p1 with input := [.memory 0xFFFFFFFF (some 1)] } : State).input = .memory 0xFFFFFFFF (some 1) :: [] ∧
    ({ p1 with input := [.memory 0 none] } : State).input = .memory 0 none :: [] := by decide
theorem witness_Idle : State.reset.input = [] ∧
    ({ p1 with input := [.takeResponse], port := [⟨true, 1⟩, ⟨true, 2⟩] } : State).port =
      ⟨true, 1⟩ :: [⟨true, 2⟩] ∧
    ({ p1 with input := [.takeResponse] } : State).port = [] := by decide

end Sys2Proof.Tests
end

/-! The read primitive (rule R63). -/

namespace Sys2Proof.Machine

/-- Past the wrap check, `MemRead` is the plain read of the bytes (rule R63). -/
theorem memRead_eq_readBytes {m : Memory} {a n : Nat} (h : a + n ≤ 2 ^ 32) :
    memRead m a n = readBytes m a n :=
  if_neg fun hw => absurd ((wraps_iff a n).mp hw) (by omega)

/-- A range past the top of the address space is refused as a whole, at its first address (rule R63). -/
theorem memRead_of_wrap {m : Memory} {a n : Nat} (h : 2 ^ 32 < a + n) :
    memRead m a n = .error ⟨.addrWrap, BitVec.ofNat 32 a⟩ :=
  if_pos ((wraps_iff a n).mpr h)

/-- Settles O31: behind the wrap check stands `readBytes`, whose two inversion lemmas name its answers. -/
theorem memReadAsSpecified : Obligations.MemReadAsSpecified := by
  intro m a n ha _
  refine ⟨memRead_of_wrap, ?empty, ?unanswered, ?answered⟩
  case empty =>
    rintro rfl
    exact memRead_eq_readBytes (n := 0) (by omega)
  case unanswered =>
    intro x hle hx
    rw [memRead_eq_readBytes hle]
    exact readBytes_error_iff.mpr ⟨x, hx, rfl⟩
  case answered =>
    intro bs hle hlen hbs
    rw [memRead_eq_readBytes hle]
    exact readBytes_ok_iff.mpr ⟨hlen, hbs⟩

end Sys2Proof.Machine

/-! The decoder's checks in order (rule R84), and the step on a word that fails or passes them. -/

namespace Sys2Proof

theorem toNat_eq_zero {n : Nat} {x : BitVec n} : x.toNat = 0 ↔ x = 0 := by
  simp [← BitVec.toNat_inj]

/-- The read-only registers by their indices (rule R23). -/
theorem writable_eq_false_iff (r : Reg) :
    r.writable = false ↔ r.index.toNat ∈ [1, 2, 3, 13, 14, 15] := by
  cases r <;> decide

/-- Of the registers SET may write, only SUM and PROTO are narrower than an immediate (rule R23). -/
theorem width_of_writable {r : Reg} (h : r.writable = true) :
    r.width = if r.index.toNat = 0 then 16 else if r.index.toNat = 11 then 8 else 32 := by
  revert h
  cases r <;> decide

/-- So only a SET of SUM or PROTO can meet too wide a value (rule R84 item 7). -/
theorem fits_eq_false_iff {r : Reg} (h : r.writable = true) (imm : Word) :
    r.fits imm = false ↔
      r.index.toNat = 0 ∧ 2 ^ 16 ≤ imm.toNat ∨ r.index.toNat = 11 ∧ 2 ^ 8 ≤ imm.toNat := by
  have himm := imm.isLt
  unfold Reg.fits
  rw [decide_eq_false_iff_not, width_of_writable h]
  split_ifs <;> omega

/-- The checks on SET's operands by register index (rule R84 items 6 and 7). -/
theorem setViolation_eq (hi : Word) (r : Reg) (imm : Word) :
    setViolation? hi r imm =
      if r.index.toNat ∈ [1, 2, 3, 13, 14, 15] then some ⟨.illReg, hi⟩
      else if r.index.toNat = 0 ∧ 2 ^ 16 ≤ imm.toNat ∨ r.index.toNat = 11 ∧ 2 ^ 8 ≤ imm.toNat then
        some ⟨.illValue, imm⟩
      else none := by
  cases hw : r.writable with
  | false => rw [setViolation?, if_pos hw, if_pos ((writable_eq_false_iff r).mp hw)]
  | true =>
    have hidx : r.index.toNat ∉ [1, 2, 3, 13, 14, 15] := fun h =>
      absurd ((writable_eq_false_iff r).mpr h) (by simp [hw])
    simp only [setViolation?, hw, fits_eq_false_iff hw, hidx, Bool.true_eq_false, if_false]

/-- SET and GET are no format N commands (rule R83). -/
theorem opcode_ne_of_formN {op : BitVec 8} {i : Instr} (h : opForm? op = some (.n i)) :
    op.toNat ≠ 0x01 ∧ op.toNat ≠ 0x02 := by
  constructor <;> intro hop
  · simp [opForm_i_iff.mpr (BitVec.eq_of_toNat_eq hop)] at h
  · simp [opForm_r_iff.mpr (BitVec.eq_of_toNat_eq hop)] at h

/-- Below 24 every index names a register (rule R23). -/
theorem ofIndex_some {k : BitVec 5} (h : ¬ 24 ≤ k.toNat) : ∃ r, Reg.ofIndex k = some r :=
  Option.ne_none_iff_exists'.mp fun hk => h (ofIndex_none_iff.mp hk)

section
variable {w : Cmd}

/-- Check 1 of rule R84. -/
theorem decode_of_noForm (h : opForm? (opField w) = none) :
    decode w = .error ⟨.illOp, upperHalf w⟩ := by
  simp only [decode, h]

/-- Check 2 of rule R84, the same in every format. -/
theorem decode_of_reserved {f : OpForm} (h : opForm? (opField w) = some f) (hz : zField w ≠ 0) :
    decode w = .error ⟨.illField, upperHalf w⟩ := by
  cases f <;> simp only [decode, h, if_pos hz]

/-- A command without operands, and a nonzero operand field: checks 3 and 4 of rule R84. -/
theorem decode_formN_of_operand {i : Instr} (h : opForm? (opField w) = some (.n i))
    (hz : zField w = 0) (hop : rField w ≠ 0 ∨ immField w ≠ 0) :
    decode w = .error ⟨.illField, upperHalf w⟩ := by
  simp only [decode, h, hz, ne_eq, not_true, if_false]
  split_ifs with hr himm
  · exact absurd hop (by simp [hr, himm])
  · rfl
  · rfl

/-- A command without operands, past its checks. -/
theorem decode_formN {i : Instr} (h : opForm? (opField w) = some (.n i)) (hz : zField w = 0)
    (hr : rField w = 0) (himm : immField w = 0) : decode w = .ok i := by
  simp only [decode, h, hz, hr, himm, ne_eq, not_true, if_false]

/-- GET: check 4 of rule R84 comes before the register is looked at. -/
theorem decode_get_of_imm (h : opForm? (opField w) = some .r) (hz : zField w = 0)
    (himm : immField w ≠ 0) : decode w = .error ⟨.illField, upperHalf w⟩ := by
  simp only [decode, h, hz, himm, ne_eq, not_true, not_false_eq_true, if_true, if_false]

/-- GET of an unassigned index: check 5 of rule R84. -/
theorem decode_get_unassigned (h : opForm? (opField w) = some .r) (hz : zField w = 0)
    (himm : immField w = 0) (hr : Reg.ofIndex (rField w) = none) :
    decode w = .error ⟨.illReg, upperHalf w⟩ := by
  simp only [decode, h, hz, himm, hr, ne_eq, not_true, if_false]

/-- GET of a register: check 8 of rule R84. -/
theorem decode_get {r : Reg} (h : opForm? (opField w) = some .r) (hz : zField w = 0)
    (himm : immField w = 0) (hr : Reg.ofIndex (rField w) = some r) : decode w = .ok (.get r) := by
  simp only [decode, h, hz, himm, hr, ne_eq, not_true, if_false]

/-- SET of an unassigned index: check 5 of rule R84. -/
theorem decode_set_unassigned (h : opForm? (opField w) = some .i) (hz : zField w = 0)
    (hr : Reg.ofIndex (rField w) = none) : decode w = .error ⟨.illReg, upperHalf w⟩ := by
  simp only [decode, h, hz, hr, ne_eq, not_true, if_false]

/-- SET of a register: checks 6 and 7 of rule R84, then the command. -/
theorem decode_set {r : Reg} (h : opForm? (opField w) = some .i) (hz : zField w = 0)
    (hr : Reg.ofIndex (rField w) = some r) :
    decode w =
      if (rField w).toNat ∈ [1, 2, 3, 13, 14, 15] then .error ⟨.illReg, upperHalf w⟩
      else if (rField w).toNat = 0 ∧ 2 ^ 16 ≤ (immField w).toNat ∨
          (rField w).toNat = 11 ∧ 2 ^ 8 ≤ (immField w).toNat then
        .error ⟨.illValue, immField w⟩
      else .ok (.set r (immField w)) := by
  simp only [decode, h, hz, hr, setViolation_eq, index_of_ofIndex hr, ne_eq, not_true, if_false]
  split_ifs <;> rfl

end

end Sys2Proof

namespace Sys2Proof.Machine

/-- The step on a command word: it leaves the host's list, the position advances, and it is issued
(rules R5, R21). -/
theorem step_command {s : State} {w : Cmd} {rest : List HostMove}
    (hin : s.input = .command w :: rest) : step s = issue w (s.withInput rest).advance := by
  simp only [step, stepMove, hin, makeMove]

/-- A word that decodes is executed, faulted or not. -/
theorem issue_of_ok {w : Cmd} {i : Instr} (h : decode w = .ok i) (s : State) :
    issue w s = exec i s := by
  simp only [issue, h]

/-- A word that does not decode latches its fault (rules R84, R200). -/
theorem issue_of_error {w : Cmd} {v : Violation} {s : State} (h : decode w = .error v)
    (hf : s.fault = false) : issue w s = .next (s.raise v) := by
  simp only [issue, h, unlessFaulted_of_clear _ hf]

/-- Settles O4: each format of a command word (rule R81) meets its own part of the list of checks, and
the lemmas on `decode` for that format give the end of each. -/
theorem wordsAreCheckedInOrder : Obligations.WordsAreCheckedInOrder := by
  intro s w rest hf hin
  have hfail {v : Violation} (h : decode w = .error v) :
      step s = .next ((s.withInput rest).advance.raise v) :=
    (step_command hin).trans (issue_of_error h hf)
  have hpass {i : Instr} (h : decode w = .ok i) : step s = exec i (s.withInput rest).advance :=
    (step_command hin).trans (issue_of_ok h _)
  simp only [← opField_toNat, ← rField_toNat, ← zField_toNat, ← immField_toNat, ← upperHalf_eq]
  cases hform : opForm? (opField w) with
  | none =>
    rw [if_pos (opForm_none_iff.mp hform)]
    exact hfail (decode_of_noForm hform)
  | some f =>
    rw [if_neg fun h => nomatch hform.symm.trans (opForm_none_iff.mpr h)]
    by_cases hz : zField w = 0
    case neg =>
      rw [if_pos (mt toNat_eq_zero.mp hz)]
      exact hfail (decode_of_reserved hform hz)
    rw [if_neg (not_not.mpr (toNat_eq_zero.mpr hz))]
    cases f with
    | n i =>
      obtain ⟨hset, hget⟩ := opcode_ne_of_formN hform
      obtain ⟨hop, hr, himm, -⟩ := opForm_n hform
      simp only [hset, hget, ne_eq, not_false_eq_true, true_and, false_and, or_self, if_false,
        toNat_eq_zero]
      split_ifs with hr0 himm0
      · rw [hr0, himm0]
        exact ⟨i, by rw [hop], by rw [hr], by rw [himm], hpass (decode_formN hform hz hr0 himm0)⟩
      · exact hfail (decode_formN_of_operand hform hz (.inr himm0))
      · exact hfail (decode_formN_of_operand hform hz (.inl hr0))
    | r =>
      have hget : (opField w).toNat = 0x02 := by rw [opForm_r_iff.mp hform]; rfl
      simp only [hget, ne_eq, OfNat.ofNat_ne_one, not_true, not_false_eq_true, true_and, false_and,
        and_false, or_true, if_false, toNat_eq_zero]
      split_ifs with himm hr
      · exact hfail (decode_get_unassigned hform hz himm (ofIndex_none_iff.mpr hr))
      · obtain ⟨r, hk⟩ := ofIndex_some hr
        rw [himm, ← index_of_ofIndex hk]
        exact ⟨.get r, rfl, rfl, rfl, hpass (decode_get hform hz himm hk)⟩
      · exact hfail (decode_get_of_imm hform hz himm)
    | i =>
      have hset : (opField w).toNat = 0x01 := by rw [opForm_i_iff.mp hform]; rfl
      simp only [hset, ne_eq, not_true, true_and, false_and, true_or, if_false]
      by_cases hr : 24 ≤ (rField w).toNat
      case pos =>
        rw [if_pos hr]
        exact hfail (decode_set_unassigned hform hz (ofIndex_none_iff.mpr hr))
      obtain ⟨r, hk⟩ := ofIndex_some hr
      have hd := decode_set hform hz hk
      rw [if_neg hr]
      split_ifs with hro hwide
      · exact hfail (by rw [hd, if_pos hro])
      · rw [BitVec.ofNat_toNat, BitVec.setWidth_eq]
        exact hfail (by rw [hd, if_neg hro, if_pos hwide])
      · exact ⟨.set r (immField w), rfl, by rw [← index_of_ofIndex hk]; rfl, rfl,
          hpass (by rw [hd, if_neg hro, if_neg hwide])⟩

end Sys2Proof.Machine

/-! End-around carry (rule R101). -/

namespace Sys2Proof.Machine

/-- One fold of the sum of two halves has no second carry: a carry leaves at most 0xFFFE below it (rule
R101). -/
theorem pass_lt_of_le {n : Nat} (h : n ≤ 0xFFFF + 0xFFFF) : n % 2 ^ 16 + n / 2 ^ 16 < 2 ^ 16 := by
  omega

/-- Settles O6: the folded sum fits 16 bits, so the truncation in `ocadd` leaves it as it is. -/
theorem ocaddAddsTheCarryBack : Obligations.OcaddAddsTheCarryBack := by
  intro a b
  have hsum : a.toNat + b.toNat ≤ 0xFFFF + 0xFFFF :=
    Nat.add_le_add (Nat.le_of_lt_succ a.isLt) (Nat.le_of_lt_succ b.isLt)
  exact (BitVec.toNat_ofNat _ 16).trans (Nat.mod_eq_of_lt (pass_lt_of_le hsum))

end Sys2Proof.Machine

/-! The scalar accumulator ACC (rule R120). -/

namespace Sys2Proof.Machine

/-- ACC on a range that cannot be read takes the read's fault, in the state from before the command
(rules R120, R200). -/
theorem exec_acc_of_error {s : State} {v : Violation} (hf : s.fault = false)
    (hr : memRead s.mem s.addr.toNat s.len.toNat = .error v) : exec .acc s = .next (s.raise v) := by
  simp only [exec, execAcc, State.readSegment, hr, unlessFaulted_of_clear _ hf, settle_error]

/-- ACC on a range that reads as `bs` writes SUM alone (rule R120). -/
theorem exec_acc_of_ok {s : State} {bs : List Byte} (hf : s.fault = false)
    (hr : memRead s.mem s.addr.toNat s.len.toNat = .ok bs) :
    exec .acc s = .next (s.withSum (csum bs s.sum)) := by
  simp only [exec, execAcc, State.readSegment, hr, unlessFaulted_of_clear _ hf, settle_ok]

/-- Settles O18: the three answers of `MemRead` on `[ADDR, ADDR+LEN)` (rule R63) are the three ends of
ACC. -/
theorem accAsSpecified : Obligations.AccAsSpecified := by
  refine ⟨by decide, fun s hf => ?_⟩
  obtain ⟨hwrap, -, hbus, hbytes⟩ :=
    memReadAsSpecified s.mem s.addr.toNat s.len.toNat s.addr.isLt s.len.isLt
  refine ⟨fun h => ?wraps, fun x hle hx => ?unanswered, fun bs hle hlen hbs => ?answered⟩
  case wraps =>
    rw [exec_acc_of_error hf (hwrap h), BitVec.ofNat_toNat, BitVec.setWidth_eq]
    rfl
  case unanswered => exact exec_acc_of_error hf (hbus x hle hx)
  case answered => exact exec_acc_of_ok hf (hbytes bs hle hlen hbs)

end Sys2Proof.Machine

/-! The segmented walker WALK, SEG, FIN (rules R131, R133, R135). -/

namespace Sys2Proof.Machine

/-- The skipped and the taken bytes of a segment lie inside it (rule R133). -/
theorem segSkip_add_segTake_le (s : State) : s.segSkip + s.segTake ≤ s.len.toNat := by
  simp only [State.segSkip, State.segTake]
  omega

/-- A segment past the top of the address space is refused as a whole, whatever part of it is taken
(rule R133). -/
theorem readTaken_of_wrap {s : State} (h : 2 ^ 32 < s.addr.toNat + s.len.toNat) :
    s.readTaken = .error ⟨.addrWrap, s.addr⟩ :=
  if_pos ((wraps_iff _ _).mpr h)

/-- A segment inside the address space has its taken bytes read, and no others (rule R133). -/
theorem readTaken_eq_readBytes {s : State} (h : s.addr.toNat + s.len.toNat ≤ 2 ^ 32) :
    s.readTaken = readBytes s.mem (s.addr.toNat + s.segSkip) s.segTake := by
  have hinside := segSkip_add_segTake_le s
  calc s.readTaken
      = memRead s.mem (s.addr.toNat + s.segSkip) s.segTake :=
        if_neg fun hw => absurd ((wraps_iff _ _).mp hw) (by omega)
    _ = readBytes s.mem (s.addr.toNat + s.segSkip) s.segTake := memRead_eq_readBytes (by omega)

/-- SEG whose taken bytes cannot be read takes the read's fault, in the state from before the command
(rules R133, R200). -/
theorem exec_seg_of_error {s : State} {v : Violation} (hf : s.fault = false)
    (hr : s.readTaken = .error v) : exec .seg s = .next (s.raise v) := by
  simp only [exec, execSeg, hr, unlessFaulted_of_clear _ hf, settle_error]

/-- SEG whose taken bytes read as `bs` passes them through the pairing machine and counts SKIP and REM
down (rule R133). -/
theorem exec_seg_of_ok {s : State} {bs : List Byte} (hf : s.fault = false)
    (hr : s.readTaken = .ok bs) :
    exec .seg s = .next ((s.withPairing (run s.pairing bs)).withSelection
      (BitVec.ofNat 32 (s.skip.toNat - s.segSkip)) (BitVec.ofNat 32 (s.rem.toNat - s.segTake))) := by
  simp only [exec, execSeg, hr, unlessFaulted_of_clear _ hf, settle_ok]

/-- Settles O20: the wrap check sees the whole segment, and behind it stands `readBytes` on the taken
part, whose two inversion lemmas name its answers. -/
theorem segAsSpecified : Obligations.SegAsSpecified := by
  refine ⟨by decide, fun s hf => ⟨fun h => ?wraps, fun x hle hx => ?unanswered,
    fun bs hle hlen hbs => ?answered⟩⟩
  case wraps => exact exec_seg_of_error hf (readTaken_of_wrap h)
  case unanswered =>
    exact exec_seg_of_error hf
      ((readTaken_eq_readBytes hle).trans (readBytes_error_iff.mpr ⟨x, hx, rfl⟩))
  case answered =>
    exact exec_seg_of_ok hf ((readTaken_eq_readBytes hle).trans (readBytes_ok_iff.mpr ⟨hlen, hbs⟩))

/-- WALK loads the counters and drops a pending byte; SUM stays as the initial value (rule R131). -/
theorem exec_walk {s : State} (hf : s.fault = false) :
    exec .walk s = .next ((s.withPairing ⟨s.sum, none⟩).withSelection s.off s.size) :=
  unlessFaulted_of_clear _ hf

/-- Settles O19: WALK's two updates together write SKIP, REM and PEND; SUM gets itself. -/
theorem walkAsSpecified : Obligations.WalkAsSpecified :=
  ⟨by decide, fun _ hf => exec_walk hf⟩

/-- A last odd byte is the high byte of a word whose low byte is 0 (rules R105, R135). -/
theorem word_zero_eq (h : Byte) : word h 0 = BitVec.ofNat 16 (h.toNat * 256) := by
  apply BitVec.eq_of_toNat_eq
  have hlt := h.isLt
  simp only [word, toNat_append_add, BitVec.ofNat_eq_ofNat, BitVec.toNat_ofNat]
  omega

/-- FIN ends the stream the registers hold (rule R135). -/
theorem exec_fin {s : State} (hf : s.fault = false) :
    exec .fin s = .next (s.withPairing (finish s.pairing)) :=
  unlessFaulted_of_clear _ hf

/-- Ending a stream with no byte pending changes nothing (rule R105). -/
theorem finish_of_none {st : Pairing} (hp : st.pend = none) : finish st = st := by
  simp only [finish, hp]

/-- Ending a stream with a byte pending pads it and adds it (rule R105). -/
theorem finish_of_some {st : Pairing} {h : Byte} (hp : st.pend = some h) :
    finish st = ⟨ocadd st.sum (word h 0), none⟩ := by
  simp only [finish, hp]

/-- Settles O21: the two pairing states of `finish` are the two cases of FIN. -/
theorem finAsSpecified : Obligations.FinAsSpecified := by
  refine ⟨by decide, fun s hf hp => ?aligned, fun s h hf hp => ?pending⟩
  case aligned =>
    rw [exec_fin hf, finish_of_none (st := s.pairing) hp]
    rfl
  case pending =>
    rw [exec_fin hf, finish_of_some (st := s.pairing) hp, word_zero_eq]
    rfl

end Sys2Proof.Machine

/-! The pseudo-header command PSH (spec/43_pseudo_header.md). -/

namespace Sys2Proof.Machine

/-- PSH replaces SUM by the pseudo-header sum of the registers; the old SUM is not read (rule R150). -/
theorem exec_psh {s : State} (hf : s.fault = false) :
    exec .psh s = .next (s.withSum (s.pseudoSum s.ulen s.proto)) :=
  unlessFaulted_of_clear _ hf

/-- Settles O22: the pseudo-header sum PSH writes is the checksum, from 0, of the R151 bytes. -/
theorem pshAsSpecified : Obligations.PshAsSpecified :=
  ⟨by decide, fun _ hf => exec_psh hf⟩

end Sys2Proof.Machine

/-! The header commands HDR, CCLOSE, CVERIFY and the opening C4OPEN (spec/44_composers.md). -/

namespace Sys2Proof.Machine

/-- Settles O25: masking maps every byte at its own index. -/
theorem maskedHeaderZeroesTheField : Obligations.MaskedHeaderZeroesTheField := by
  refine fun h c => ⟨masked_length h c, fun j b hj => ?_⟩
  simp only [masked, List.getElem?_mapIdx, hj, Option.map_some]

/-- C4OPEN starts an empty sum and loads the counters for the payload alone (rule R163). -/
theorem exec_c4open {s : State} (hf : s.fault = false) :
    exec .c4open s = .next ((s.withPairing ⟨0, none⟩).withSelection 0 s.size) :=
  unlessFaulted_of_clear _ hf

/-- Settles O27: C4OPEN's two updates together write SUM, PEND, SKIP and REM. -/
theorem c4openAsSpecified : Obligations.C4openAsSpecified :=
  ⟨by decide, fun _ hf => exec_c4open hf⟩

section
variable {s : State}

/-- A header past the top of the address space is refused as a whole, at HADDR (rule R63). -/
theorem readHeader_of_wrap (h : 2 ^ 32 < s.haddr.toNat + s.hlen.toNat) :
    s.readHeader = .error ⟨.addrWrap, s.haddr⟩ := by
  rw [State.readHeader, memRead_of_wrap h, BitVec.ofNat_toNat, BitVec.setWidth_eq]

/-- A header inside the address space is read byte by byte (rule R63). -/
theorem readHeader_eq_readBytes (h : s.haddr.toNat + s.hlen.toNat ≤ 2 ^ 32) :
    s.readHeader = readBytes s.mem s.haddr.toNat s.hlen.toNat :=
  memRead_eq_readBytes h

/-- The header that stands in memory is what is read (rule R63). -/
theorem readHeader_of_holdsBytes {h : List Byte} (hle : s.haddr.toNat + s.hlen.toNat ≤ 2 ^ 32)
    (hlen : h.length = s.hlen.toNat) (hbs : HoldsBytes s.mem s.haddr.toNat h) :
    s.readHeader = .ok h :=
  (readHeader_eq_readBytes hle).trans (readBytes_ok_iff.mpr ⟨hlen, hbs⟩)

/-- The commands that read the header take the read's fault, in the state from before the command
(rules R160, R166, R169, R200). -/
theorem exec_of_readHeader_error {i : Instr} (hi : i ∈ [Instr.hdr, .cclose, .cverify])
    {v : Violation} (hf : s.fault = false) (hr : s.readHeader = .error v) :
    exec i s = .next (s.raise v) := by
  simp only [List.mem_cons, List.not_mem_nil, or_false] at hi
  rcases hi with rfl | rfl | rfl
  · simp only [exec, execHdr, hr, unlessFaulted_of_clear _ hf, settle_error]
  · simp only [exec, execCclose, hr, unlessFaulted_of_clear _ hf, settle_error]
  · simp only [exec, execCverify, hr, unlessFaulted_of_clear _ hf, settle_error]

/-- The first fault of the header commands: AddrWrap with HADDR (rules R160, R166, R169). -/
theorem exec_of_headerWraps {i : Instr} (hi : i ∈ [Instr.hdr, .cclose, .cverify])
    (hf : s.fault = false) (h : 2 ^ 32 < s.haddr.toNat + s.hlen.toNat) :
    exec i s = .next (s.raise ⟨.addrWrap, s.haddr⟩) :=
  exec_of_readHeader_error hi hf (readHeader_of_wrap h)

/-- The second fault of the header commands: BusError with the lowest unanswered address (rules R160,
R166, R169). -/
theorem exec_of_headerUnanswered {i : Instr} (hi : i ∈ [Instr.hdr, .cclose, .cverify])
    (hf : s.fault = false) {x : Nat} (hle : s.haddr.toNat + s.hlen.toNat ≤ 2 ^ 32)
    (hx : FirstUnanswered s.mem s.haddr.toNat s.hlen.toNat x) :
    exec i s = .next (s.raise ⟨.busError, BitVec.ofNat 32 x⟩) :=
  exec_of_readHeader_error hi hf
    ((readHeader_eq_readBytes hle).trans (readBytes_error_iff.mpr ⟨x, hx, rfl⟩))

/-- HDR on a header that reads as `h` writes SUM alone (rule R160). -/
theorem exec_hdr_of_ok {h : List Byte} (hf : s.fault = false) (hr : s.readHeader = .ok h) :
    exec .hdr s = .next (s.withSum (csum (masked h s.coff.toNat) s.sum)) := by
  simp only [exec, execHdr, hr, unlessFaulted_of_clear _ hf, settle_ok]

/-- CCLOSE on a header that reads as `h` ends the walk and adds the masked header (rule R166). -/
theorem exec_cclose_of_ok {h : List Byte} (hf : s.fault = false) (hr : s.readHeader = .ok h) :
    exec .cclose s =
      .next (s.withPairing ⟨csum (masked h s.coff.toNat) (finish s.pairing).sum, none⟩) := by
  simp only [exec, execCclose, hr, unlessFaulted_of_clear _ hf, settle_ok]

/-- CVERIFY on a header that reads as `h` ends the walk and adds the header as it stands (rule R169). -/
theorem exec_cverify_of_ok {h : List Byte} (hf : s.fault = false) (hr : s.readHeader = .ok h) :
    exec .cverify s = .next (s.withPairing ⟨csum h (finish s.pairing).sum, none⟩) := by
  simp only [exec, execCverify, hr, unlessFaulted_of_clear _ hf, settle_ok]

end

/-- Settles O26: the three answers of the header's read are the three ends of HDR. -/
theorem hdrAsSpecified : Obligations.HdrAsSpecified :=
  ⟨by decide, fun _ hf => ⟨exec_of_headerWraps (by decide) hf,
    fun _ => exec_of_headerUnanswered (by decide) hf,
    fun _ hle hlen hbs => exec_hdr_of_ok hf (readHeader_of_holdsBytes hle hlen hbs)⟩⟩

/-- Settles O29: the three answers of the header's read are the three ends of CCLOSE; CSUM is a view of
the SUM it leaves. -/
theorem ccloseAsSpecified : Obligations.CcloseAsSpecified :=
  ⟨by decide, fun _ hf => ⟨exec_of_headerWraps (by decide) hf,
    fun _ => exec_of_headerUnanswered (by decide) hf,
    fun _ hle hlen hbs =>
      ⟨_, exec_cclose_of_ok hf (readHeader_of_holdsBytes hle hlen hbs), rfl, rfl⟩⟩⟩

/-- STATUS.VOK stands in bit 1 (rule R36). -/
theorem readReg_status_getLsbD_one (s : State) : (s.readReg .status).getLsbD 1 = s.vok := by
  simp only [State.readReg, State.statusView, BitVec.getLsbD_setWidth, BitVec.getLsbD_append]
  simp

/-- While no fault is latched VOK says that SUM is all ones (rule R36). -/
theorem vok_iff_of_clear {s : State} (hf : s.fault = false) : s.vok = true ↔ s.sum = 0xFFFF := by
  simp [State.vok, hf]

/-- CSUM reads 0 exactly when SUM is all ones (rule R34). -/
theorem readReg_csum_eq_zero_iff (s : State) : s.readReg .csum = 0 ↔ s.sum = 0xFFFF := by
  have hlt := s.sum.isLt
  simp only [← BitVec.toNat_inj, State.readReg, State.csumView, BitVec.toNat_setWidth,
    BitVec.toNat_not, BitVec.ofNat_eq_ofNat, BitVec.toNat_ofNat]
  omega

/-- Settles O30: the three answers of the header's read are the three ends of CVERIFY; VOK and CSUM are
views of the SUM it leaves. -/
theorem cverifyAsSpecified : Obligations.CverifyAsSpecified := by
  refine ⟨by decide, fun s hf => ⟨exec_of_headerWraps (by decide) hf,
    fun _ => exec_of_headerUnanswered (by decide) hf, fun h hle hlen hbs => ?_⟩⟩
  refine ⟨_, exec_cverify_of_ok hf (readHeader_of_holdsBytes hle hlen hbs), rfl, ?vok, ?csum⟩
  case vok =>
    rw [readReg_status_getLsbD_one]
    exact vok_iff_of_clear hf
  case csum => exact readReg_csum_eq_zero_iff _

end Sys2Proof.Machine

/-! The system commands NOP, SET and RST (spec/45_system.md). -/

namespace Sys2Proof

/-- A word with the opcode of a command without operands is that command's word, or has a reserved bit
set: checks 2 to 4 of rule R84 are one check. -/
theorem decode_formN_of_ne_encode {w : Cmd} {i : Instr} (h : opForm? (opField w) = some (.n i))
    (hw : w ≠ encode i) : decode w = .error ⟨.illField, upperHalf w⟩ := by
  by_cases hz : zField w = 0
  case neg => exact decode_of_reserved h hz
  refine decode_formN_of_operand h hz (not_and_or.mp fun ⟨hr, himm⟩ => hw ?_)
  obtain ⟨hop, hrBits, himmBits, -⟩ := opForm_n h
  rw [encode, hop, hrBits, himmBits, ← hr, ← himm, commandWord_fields hz]

/-- The same check with the opcode and the fault's information as numbers. -/
theorem decode_eq_illField {w : Cmd} {op : BitVec 8} {i : Instr} (h : opForm? op = some (.n i))
    (hop : w.toNat / 2 ^ 56 = op.toNat) (hw : w ≠ encode i) :
    decode w = .error ⟨.illField, BitVec.ofNat 32 (w.toNat / 2 ^ 32)⟩ := by
  have hfield : opField w = op := BitVec.eq_of_toNat_eq ((opField_toNat w).trans hop)
  rw [← upperHalf_eq]
  exact decode_formN_of_ne_encode (hfield ▸ h) hw

/-- SET's word from its fields (rules R81, R181). -/
theorem encode_set (r : Reg) (imm : Word) : encode (.set r imm) = commandWord 0x01 r.index imm := rfl

/-- The read-only registers by name (rule R23). -/
theorem mem_readOnly_iff (r : Reg) :
    r ∈ [Reg.pend, .skip, .rem, .csum, .status, .finfo] ↔ r.writable = false := by
  cases r <;> decide

/-- The registers a SET value can be too wide for, by name (rule R181). -/
theorem fits_eq_false_iff_sum_or_proto {r : Reg} (h : r.writable = true) (imm : Word) :
    r.fits imm = false ↔ r = .sum ∧ 2 ^ 16 ≤ imm.toNat ∨ r = .proto ∧ 2 ^ 8 ≤ imm.toNat := by
  have hsum : r.index.toNat = 0 ↔ r = .sum := by cases r <;> decide
  have hproto : r.index.toNat = 11 ↔ r = .proto := by cases r <;> decide
  rw [fits_eq_false_iff h, hsum, hproto]

/-- The first check on SET's operands (rule R84 item 6). -/
theorem setViolation_of_readOnly {hi : Word} {r : Reg} {imm : Word} (h : r.writable = false) :
    setViolation? hi r imm = some ⟨.illReg, hi⟩ :=
  if_pos h

/-- The second check on SET's operands (rule R84 item 7). -/
theorem setViolation_of_wide {hi : Word} {r : Reg} {imm : Word} (hw : r.writable = true)
    (h : r.fits imm = false) : setViolation? hi r imm = some ⟨.illValue, imm⟩ := by
  simp only [setViolation?, hw, h, Bool.true_eq_false, if_false, if_true]

end Sys2Proof

namespace Sys2Proof.Machine

/-- NOP has no effect, whichever way its test of FAULT goes (rule R180). -/
theorem exec_nop (s : State) : exec .nop s = .next s :=
  (unlessFaulted_eq s s).trans (congrArg Host.Outcome.next (ite_self s))

/-- Settles O13: the all-zero word is the only one with NOP's opcode that decodes. -/
theorem nopAsSpecified : Obligations.NopAsSpecified :=
  ⟨by decide, exec_nop, fun _ hop hw => decode_eq_illField (op := 0x00) (i := .nop) rfl hop hw⟩

/-- A word that does not decode latches its fault, or is discarded while one is latched (rule R202). -/
theorem issue_eq_of_error {w : Cmd} {v : Violation} (h : decode w = .error v) (s : State) :
    issue w s = .next (if s.fault then s else s.raise v) := by
  simp only [issue, h, unlessFaulted_eq]

/-- After RST every register reads as in the reset state (rules R43, R184). -/
theorem readReg_resetRegs (s : State) (q : Reg) : s.resetRegs.readReg q = State.reset.readReg q :=
  rfl

/-- Settles O17: RST does not test FAULT, and its word is the only one with its opcode that decodes. -/
theorem rstAsSpecified : Obligations.RstAsSpecified := by
  refine ⟨by decide, fun s => ⟨rfl, ?status⟩, fun s w rest hop hw hin => ?reserved⟩
  case status =>
    rw [readReg_resetRegs]
    decide
  case reserved =>
    have hd := decode_eq_illField (op := 0x03) (i := .rst) rfl hop hw
    exact (step_command hin).trans (issue_eq_of_error hd _)

section
variable {s : State} {r : Reg} {imm : Word}

/-- SET of operands that fail a check takes that check's fault (rules R181, R200). -/
theorem exec_set_of_violation {v : Violation} (hf : s.fault = false)
    (hv : setViolation? (upperHalf (encode (.set r imm))) r imm = some v) :
    exec (.set r imm) s = .next (s.raise v) := by
  simp only [exec, execSet, hv, unlessFaulted_of_clear _ hf, settle_error]

/-- A write updates one field, so every register that is not computed from it reads as before (rules
R34, R36, R181). -/
theorem readReg_writeReg_of_ne {q : Reg} (hq : q ≠ r)
    (hview : r = .sum → q ≠ .csum ∧ q ≠ .status) :
    (s.writeReg r imm).readReg q = s.readReg q := by
  cases r
  case pend | skip | rem | csum | status | finfo => rfl
  case' sum => obtain ⟨hcsum, hstatus⟩ := hview rfl
  all_goals cases q <;> first | contradiction | rfl

end

theorem sameLatch_writeReg (s : State) (r : Reg) (imm : Word) : SameLatch s (s.writeReg r imm) :=
  ⟨writeReg_fault s r imm, writeReg_cause s r imm, writeReg_finfo s r imm⟩

theorem sameSurroundings_writeReg (s : State) (r : Reg) (imm : Word) :
    SameSurroundings s (s.writeReg r imm) :=
  ⟨fun a => congrArg (Memory.read · a) (writeReg_mem s r imm), writeReg_input s r imm,
    writeReg_pos s r imm, writeReg_received s r imm⟩

/-- Settles O14: a SET meets one of its three refusals, or passes the checks and is a `writeReg`. -/
theorem setAsSpecified : Obligations.SetAsSpecified := by
  refine ⟨fun r imm => ?word, fun k imm hk => ?unassigned, fun r imm s hf hr => ?readOnly,
    fun r imm s hf hwide => ?tooWide, fun r imm s hf hr hsum hproto => ?written⟩
  case word =>
    have hop : (0x01 : BitVec 8).toNat = 1 := rfl
    rw [encode_set, commandWord_toNat, hop, Nat.one_mul]
  case unassigned =>
    have hform : opForm? (opField (commandWord 0x01 k imm)) = some .i := by
      rw [opField_commandWord, opForm_i_iff]
    have hnone : Reg.ofIndex (rField (commandWord 0x01 k imm)) = none := by
      rwa [rField_commandWord, ofIndex_none_iff]
    exact decode_set_unassigned hform (zField_commandWord _ _ _) hnone
  case readOnly =>
    exact exec_set_of_violation hf (setViolation_of_readOnly ((mem_readOnly_iff r).mp hr))
  case tooWide =>
    have hw : r.writable = true := by rcases hwide with ⟨rfl, -⟩ | ⟨rfl, -⟩ <;> rfl
    exact exec_set_of_violation hf
      (setViolation_of_wide hw ((fits_eq_false_iff_sum_or_proto hw imm).mpr hwide))
  case written =>
    have hw : r.writable = true := Bool.eq_true_of_not_eq_false (mt (mem_readOnly_iff r).mpr hr)
    have hfit : r.fits imm = true := by
      rw [← Bool.not_eq_false, fits_eq_false_iff_sum_or_proto hw]
      rintro (⟨h, hle⟩ | ⟨h, hle⟩)
      · exact Nat.not_lt.mpr hle (hsum h)
      · exact Nat.not_lt.mpr hle (hproto h)
    exact ⟨s.writeReg r imm, exec_set_next hf hw hfit, readReg_writeReg hw hfit,
      fun _ => readReg_writeReg_of_ne, sameLatch_writeReg s r imm,
      sameSurroundings_writeReg s r imm, writeReg_port s r imm⟩

end Sys2Proof.Machine

/-! The faulted state (rule R202): which words are a RST or a GET, and what the engine does with them and
with every other word. -/

namespace Sys2Proof

/-- A word that decodes has its command's opcode and operands in its fields, and no reserved bit set
(rules R80, R81). -/
theorem fields_of_decode {w : Cmd} {i : Instr} (hd : decode w = .ok i) :
    opField w = i.opcode ∧ rField w = i.rBits ∧ zField w = 0 ∧ immField w = i.immBits := by
  cases hform : opForm? (opField w) with
  | none => exact nomatch (decode_of_noForm hform).symm.trans hd
  | some f =>
    by_cases hz : zField w = 0
    case neg => exact nomatch (decode_of_reserved hform hz).symm.trans hd
    cases f with
    | n j =>
      by_cases hop : rField w = 0 ∧ immField w = 0
      case neg => exact nomatch (decode_formN_of_operand hform hz (not_and_or.mp hop)).symm.trans hd
      obtain ⟨hr, himm⟩ := hop
      cases (decode_formN hform hz hr himm).symm.trans hd
      obtain ⟨hopcode, hrBits, himmBits, -⟩ := opForm_n hform
      exact ⟨hopcode.symm, hr.trans hrBits.symm, hz, himm.trans himmBits.symm⟩
    | r =>
      by_cases himm : immField w = 0
      case neg => exact nomatch (decode_get_of_imm hform hz himm).symm.trans hd
      cases hk : Reg.ofIndex (rField w) with
      | none => exact nomatch (decode_get_unassigned hform hz himm hk).symm.trans hd
      | some q =>
        cases (decode_get hform hz himm hk).symm.trans hd
        exact ⟨opForm_r_iff.mp hform, (index_of_ofIndex hk).symm, hz, himm⟩
    | i =>
      cases hk : Reg.ofIndex (rField w) with
      | none => exact nomatch (decode_set_unassigned hform hz hk).symm.trans hd
      | some q =>
        have hset := (decode_set hform hz hk).symm.trans hd
        split_ifs at hset
        cases hset
        exact ⟨opForm_i_iff.mp hform, (index_of_ofIndex hk).symm, hz, rfl⟩

/-- The word of RST is the only one that decodes to it (rule R184). -/
theorem decode_eq_rst_iff {w : Cmd} : decode w = .ok .rst ↔
    opField w = 0x03 ∧ rField w = 0 ∧ zField w = 0 ∧ immField w = 0 := by
  refine ⟨fields_of_decode, fun ⟨hop, hr, hz, himm⟩ => decode_formN ?_ hz hr himm⟩
  rw [hop]
  rfl

/-- The words that decode to a GET of the register `q` (rule R182). -/
theorem decode_eq_get_iff {w : Cmd} {q : Reg} : decode w = .ok (.get q) ↔
    opField w = 0x02 ∧ rField w = q.index ∧ zField w = 0 ∧ immField w = 0 := by
  refine ⟨fields_of_decode, fun ⟨hop, hr, hz, himm⟩ => ?_⟩
  exact decode_get (opForm_r_iff.mpr hop) hz himm (by rw [hr, ofIndex_index])

end Sys2Proof

namespace Sys2Proof.Machine

/-- Every command but GET and RST tests FAULT, and is discarded while it is 1 (rule R202). -/
theorem exec_of_fault {i : Instr} {s : State} (hf : s.fault = true) (hrst : i ≠ .rst)
    (hget : ∀ q, i ≠ .get q) : exec i s = .next s := by
  cases i
  case rst => contradiction
  case get q => exact absurd rfl (hget q)
  all_goals exact unlessFaulted_of_fault _ hf

/-- So is every word that decodes to neither, legal or not (rule R202). -/
theorem issue_of_fault {w : Cmd} {s : State} (hf : s.fault = true) (hrst : decode w ≠ .ok .rst)
    (hget : ∀ q, decode w ≠ .ok (.get q)) : issue w s = .next s := by
  cases hd : decode w with
  | error v => rw [issue_eq_of_error hd, if_pos hf]
  | ok i =>
    rw [issue_of_ok hd]
    exact exec_of_fault hf (fun h => hrst (h ▸ hd)) fun q h => hget q (h ▸ hd)

/-- While FAULT is 1 GET withholds the sum and its complement, and answers every other register (rules
R182, R202). -/
theorem exec_get_of_fault {s : State} (hf : s.fault = true) (q : Reg) :
    exec (.get q) s =
      .next (s.respond (if q = .sum ∨ q = .csum then ⟨false, 0⟩ else ⟨true, s.readReg q⟩)) := by
  simp only [exec, execGet, State.answer, hf, true_and]

/-- Settles O33: the three ends are those of a word that decodes to RST, to a GET, and to neither. -/
theorem faultedEngineObeysOnlyGetAndRst : Obligations.FaultedEngineObeysOnlyGetAndRst := by
  intro s w rest hf hin
  have hopRst : (opField w).toNat = 0x03 ↔ opField w = 0x03 := BitVec.toNat_inj (y := 0x03#8)
  have hopGet : (opField w).toNat = 0x02 ↔ opField w = 0x02 := BitVec.toNat_inj (y := 0x02#8)
  simp only [← opField_toNat, ← rField_toNat, ← zField_toNat, ← immField_toNat, toNat_eq_zero,
    hopRst, hopGet, step_command hin]
  split_ifs with hrst hget
  · exact issue_of_ok (decode_eq_rst_iff.mpr hrst) _
  · obtain ⟨hop, hz, himm, hle⟩ := hget
    obtain ⟨q, hk⟩ := ofIndex_some (Nat.not_le.mpr (Nat.lt_succ_of_le hle))
    have hr := index_of_ofIndex hk
    have hd : decode w = .ok (.get q) := decode_eq_get_iff.mpr ⟨hop, hr.symm, hz, himm⟩
    exact ⟨q, congrArg BitVec.toNat hr,
      (issue_of_ok hd _).trans (exec_get_of_fault (s := (s.withInput rest).advance) hf q)⟩
  · refine issue_of_fault hf (mt decode_eq_rst_iff.mp hrst) fun q hd => hget ?_
    obtain ⟨hop, hr, hz, himm⟩ := decode_eq_get_iff.mp hd
    have hlt : q.index.toNat ≤ 23 := by cases q <;> decide
    exact ⟨hop, hz, himm, hr ▸ hlt⟩

end Sys2Proof.Machine

/-! Decoding and encoding are inverse to each other (rules R81, R84, R85, R87). -/

namespace Sys2Proof

/-- The word of a command without operands passes checks 1 to 4 of rule R84. -/
theorem decode_encode_formN {i : Instr} (h : opForm? i.opcode = some (.n i)) :
    decode (encode i) = .ok i := by
  obtain ⟨hop, hr, hz, himm⟩ := Laws.EncodedFields.all i
  obtain ⟨-, hrBits, himmBits, -⟩ := opForm_n h
  exact decode_formN (hop ▸ h) hz (hr.trans hrBits) (himm.trans himmBits)

/-- A SET of a register it may write and a value that fits passes checks 6 and 7 of rule R84. -/
theorem setViolation_eq_none_iff {hi : Word} {r : Reg} {imm : Word} :
    setViolation? hi r imm = none ↔ (Instr.set r imm).wf = true := by
  simp only [setViolation?, Instr.wf, Bool.and_eq_true]
  split_ifs with hw hf
  · simp [hw]
  · simp [hf]
  · simp [Bool.eq_true_of_not_eq_false hw, Bool.eq_true_of_not_eq_false hf]

/-- A SET decodes to a command exactly when its operands pass the checks (rule R84 items 6 and 7). -/
theorem decode_set_eq_ok_iff {w : Cmd} {r : Reg} (h : opForm? (opField w) = some .i)
    (hz : zField w = 0) (hr : Reg.ofIndex (rField w) = some r) :
    decode w = .ok (.set r (immField w)) ↔ (Instr.set r (immField w)).wf = true := by
  rw [← setViolation_eq_none_iff (hi := upperHalf w)]
  simp only [decode, h, hz, hr, ne_eq, not_true, if_false]
  cases setViolation? (upperHalf w) r (immField w) <;> simp

/-- Settles O1: an assembled word holds the command's fields, and each format of rule R81 passes its own
part of the checks. -/
theorem decodeOfEncodeIsTheCommand : Obligations.DecodeOfEncodeIsTheCommand := by
  intro i hwf
  obtain ⟨hop, hr, hz, himm⟩ := Laws.EncodedFields.all i
  cases i with
  | set r imm =>
    have hreg : Reg.ofIndex (rField (encode (.set r imm))) = some r := hr ▸ ofIndex_index r
    have hd := decode_set_eq_ok_iff (opForm_i_iff.mpr hop) hz hreg
    rw [himm] at hd
    exact hd.mpr hwf
  | get r => exact decode_get (opForm_r_iff.mpr hop) hz himm (hr ▸ ofIndex_index r)
  | nop | rst | acc | walk | seg | fin | psh | hdr | c4open | c6open | cclose | cverify =>
    exact decode_encode_formN rfl

/-- A word is the word of the command it decodes to (rules R81, R87). -/
theorem encode_of_decode {w : Cmd} {i : Instr} (hd : decode w = .ok i) : encode i = w := by
  obtain ⟨hop, hr, hz, himm⟩ := fields_of_decode hd
  rw [encode, ← hop, ← hr, ← himm, commandWord_fields hz]

/-- Only a SET term can be ill-formed, and no word decodes to one that is (rule R85). -/
theorem wf_of_decode {w : Cmd} {i : Instr} (hd : decode w = .ok i) : i.wf = true := by
  obtain ⟨hop, hr, hz, himm⟩ := fields_of_decode hd
  cases i with
  | set r imm =>
    cases himm
    exact (decode_set_eq_ok_iff (opForm_i_iff.mpr hop) hz (hr ▸ ofIndex_index r)).mp hd
  | get | nop | rst | acc | walk | seg | fin | psh | hdr | c4open | c6open | cclose | cverify => rfl

/-- Settles O2: the decoded word is assembled again from the fields it carries. -/
theorem encodeOfDecodeIsTheWord : Obligations.EncodeOfDecodeIsTheWord :=
  fun _ _ hd => ⟨wf_of_decode hd, encode_of_decode hd⟩

/-- Settles O3: the listed words, each decoded by computation. -/
theorem specWordsDecodeToTheirCommands : Obligations.SpecWordsDecodeToTheirCommands :=
  ⟨by decide, by decide, by decide, by decide, by decide⟩

end Sys2Proof

/-! One's-complement addition as a sum modulo 65535, and the laws that follow (spec/40_arithmetic.md
section 2). -/

namespace Sys2Proof.Machine

/-- `ocadd` is the canonical sum (rules R101, R102). -/
theorem ocadd_toNat (a b : Half) : (ocadd a b).toNat = canon (a.toNat + b.toNat) := by
  have hsum : a.toNat + b.toNat ≤ 0xFFFF + 0xFFFF :=
    Nat.add_le_add (Nat.le_of_lt_succ a.isLt) (Nat.le_of_lt_succ b.isLt)
  rw [ocaddAddsTheCarryBack, ← canon_of_lt (pass_lt_of_le hsum), canon_pass]

theorem canon_eq_zero_iff {n : Nat} : canon n = 0 ↔ n = 0 := by
  unfold canon
  split_ifs with h <;> simp [h]

/-- The canonical value of zero-sum words is 0, and only theirs (rule R102). -/
theorem ocadd_eq_zero_iff {a b : Half} : ocadd a b = 0 ↔ a = 0 ∧ b = 0 := by
  simp only [← toNat_eq_zero, ocadd_toNat, canon_eq_zero_iff, Nat.add_eq_zero_iff]

/-- A sum of words is all ones exactly when it is one of the two multiples of 65535 it can reach. -/
theorem ocadd_eq_allOnes_iff {a b : Half} :
    ocadd a b = 0xFFFF ↔ a.toNat + b.toNat = 0xFFFF ∨ a.toNat + b.toNat = 0xFFFF + 0xFFFF := by
  have ha := a.isLt
  have hb := b.isLt
  have hones : (0xFFFF : Half).toNat = 0xFFFF := rfl
  rw [← BitVec.toNat_inj, ocadd_toNat, hones]
  unfold canon
  split_ifs with h
  · exact iff_of_false id (by omega)
  · omega

/-- Adding all ones, the other zero, changes nothing but 0 (rule R101). -/
theorem ocadd_allOnes (a : Half) : ocadd a 0xFFFF = if a = 0 then 0xFFFF else a := by
  have ha := a.isLt
  have hones : (0xFFFF : Half).toNat = 0xFFFF := rfl
  apply BitVec.eq_of_toNat_eq
  rw [ocadd_toNat, hones]
  unfold canon
  rw [if_neg (Nat.add_one_ne_zero _)]
  split_ifs with h
  · rw [h]; rfl
  · have hpos : a.toNat ≠ 0 := mt toNat_eq_zero.mp h
    omega

/-- A word and its complement sum to all ones. -/
theorem ocadd_not_self (a : Half) : ocadd a (~~~ a) = 0xFFFF := by
  have ha := a.isLt
  rw [ocadd_eq_allOnes_iff, BitVec.toNat_not]
  omega

/-- Settles O7: the consequences are read off the canonical sum. -/
theorem ocaddIsTheCanonicalSum : Obligations.OcaddIsTheCanonicalSum :=
  ⟨ocadd_toNat, fun _ _ => ocadd_eq_zero_iff, ocadd_allOnes, ocadd_not_self⟩

theorem ocadd_comm (a b : Half) : ocadd a b = ocadd b a := by
  apply BitVec.eq_of_toNat_eq
  rw [ocadd_toNat, ocadd_toNat, Nat.add_comm]

theorem ocadd_assoc (a b c : Half) : ocadd (ocadd a b) c = ocadd a (ocadd b c) := by
  apply BitVec.eq_of_toNat_eq
  calc (ocadd (ocadd a b) c).toNat
      = canon (a.toNat + b.toNat + c.toNat) := by rw [ocadd_toNat, ocadd_toNat, canon_canon_add]
    _ = canon (b.toNat + c.toNat + a.toNat) := by rw [Nat.add_assoc, Nat.add_comm]
    _ = canon (canon (b.toNat + c.toNat) + a.toNat) := (canon_canon_add _ _).symm
    _ = (ocadd a (ocadd b c)).toNat := by rw [ocadd_toNat a, ocadd_toNat b, Nat.add_comm]

@[simp] theorem ocadd_zero (a : Half) : ocadd a 0 = a :=
  BitVec.eq_of_toNat_eq ((ocadd_toNat a 0).trans (canon_of_lt a.isLt))

/-- Settles O8: the laws of natural addition carry over, since a canonical value may be taken early. -/
theorem ocaddIsACommutativeMonoid : Obligations.OcaddIsACommutativeMonoid :=
  ⟨ocadd_comm, ocadd_assoc, ocadd_zero⟩

/-- Enough passes give the canonical value: each keeps it, and makes a value that is too wide smaller
(rule R103). -/
theorem foldPasses_eq_canon {k : Nat} : ∀ {n : Nat}, n ≤ k → foldPasses k n = canon n := by
  induction k with
  | zero =>
    intro n h
    rw [Nat.le_zero.mp h]
    rfl
  | succ k ih =>
    intro n h
    rw [foldPasses]
    split_ifs with hwide
    · rw [ih (by omega), canon_pass]
    · rw [canon_of_lt (by omega)]

theorem fold_eq_canon (n : Nat) : fold n = canon n := foldPasses_eq_canon (le_refl n)

/-- Words added one at a time leave the canonical value of their wide sum. -/
theorem foldl_ocadd_toNat (ws : List Half) : ∀ i : Half,
    (ws.foldl ocadd i).toNat = canon (i.toNat + (ws.map BitVec.toNat).sum) := by
  induction ws with
  | nil => exact fun i => (canon_of_lt i.isLt).symm
  | cons w ws ih =>
    intro i
    rw [List.foldl_cons, ih, ocadd_toNat, canon_canon_add, List.map_cons, List.sum_cons, Nat.add_assoc]

/-- Settles O9: both sides are the canonical value. -/
theorem foldOnceEqualsAddingWordByWord : Obligations.FoldOnceEqualsAddingWordByWord :=
  ⟨fold_eq_canon, fun i ws => (foldl_ocadd_toNat ws i).trans (fold_eq_canon _).symm⟩

end Sys2Proof.Machine

/-! The pairing machine and the reference checksum (spec/40_arithmetic.md sections 3 to 5). -/

namespace Sys2Proof.Machine

theorem word_toNat (hi lo : Byte) : (word hi lo).toNat = hi.toNat * 256 + lo.toNat :=
  toNat_append_add hi lo

/-- Settles O10: the two pairing states are the two branches of `consume` and of `finish`. -/
theorem pairingMachineHoldsThenCompletes : Obligations.PairingMachineHoldsThenCompletes :=
  ⟨word_toNat, fun _ _ => rfl, fun _ _ _ => rfl, fun _ => finish_of_none rfl,
    fun _ _ => finish_of_some rfl⟩

/-- The checksum's closed form: the canonical value of the initial value and the words of the sequence
(rules R64, R106). -/
theorem csum_toNat : ∀ (bs : List Byte) (i : Half), (csum bs i).toNat = canon (i.toNat + wordSum bs)
  | [], i => (canon_of_lt i.isLt).symm
  | [hi], i => by
    have hcsum : csum [hi] i = ocadd i (word hi 0) := rfl
    have hword : (word hi 0).toNat = wordSum [hi] := by simp [word_toNat, wordSum]
    rw [hcsum, ocadd_toNat, hword]
  | hi :: lo :: bs, i => by
    rw [csum_cons_cons, csum_toNat bs, ocadd_toNat, canon_canon_add, word_toNat, wordSum_cons_cons,
      Nat.add_assoc]

/-- Settles O11: the fold is the canonical value too. -/
theorem csumIsTheFoldOfItsWords : Obligations.CsumIsTheFoldOfItsWords :=
  fun bs i => (csum_toNat bs i).trans (fold_eq_canon _).symm

/-- A first piece of even length may be summed first. -/
theorem csum_append {a b : List Byte} (h : a.length % 2 = 0) (i : Half) :
    csum (a ++ b) i = csum b (csum a i) := by
  apply BitVec.eq_of_toNat_eq
  rw [csum_toNat, csum_toNat, csum_toNat, canon_canon_add, wordSum_append a b h, Nat.add_assoc]

/-- The initial value is one more word of the sum. -/
theorem csum_eq_ocadd (a : List Byte) (i : Half) : csum a i = ocadd (csum a 0) i := by
  apply BitVec.eq_of_toNat_eq
  calc (csum a i).toNat
      = canon (0 + wordSum a + i.toNat) := by rw [csum_toNat, Nat.zero_add, Nat.add_comm]
    _ = canon (canon (0 + wordSum a) + i.toNat) := (canon_canon_add _ _).symm
    _ = (ocadd (csum a 0) i).toNat := by rw [ocadd_toNat, csum_toNat]; rfl

/-- Sequences summed one onto the other may change places, whatever their lengths. -/
theorem csum_csum_comm (a b : List Byte) (i : Half) : csum b (csum a i) = csum a (csum b i) := by
  rw [csum_eq_ocadd b, csum_eq_ocadd a i, csum_eq_ocadd a (csum b i), csum_eq_ocadd b i,
    ← ocadd_assoc, ocadd_comm (csum b 0), ocadd_assoc]

/-- Settles O12: each clause cuts the sequence where the closed form of the checksum adds up. -/
theorem csumChains : Obligations.CsumChains := by
  refine ⟨fun a b i h => csum_append h i, fun a b i => ?carried, fun a b i h => ⟨?left, ?right⟩,
    csum_eq_ocadd⟩
  case carried => rw [csum, run_append]
  case left => rw [csum_append h, csum_eq_ocadd b, ocadd_comm]
  case right => rw [csum_append h, csum_csum_comm, csum_eq_ocadd a]

end Sys2Proof.Machine

/-! What a command can do, said once: the ends of `exec`, and what each end changes (10_state.md section
10, rules R44, R200, R202). -/

namespace Sys2Proof

/-- The commands that make a check or a read that can fail (rule R191). -/
def Instr.canFault : Instr → Bool
  | .set _ _ | .acc | .seg | .hdr | .c6open | .cclose | .cverify => true
  | .nop | .get _ | .rst | .walk | .fin | .psh | .c4open => false

/-- The commands that write the walk's counters (rule R44); RST, which writes every register, is apart. -/
def Instr.counts : Instr → Bool
  | .walk | .seg | .c4open | .c6open => true
  | .nop | .set _ _ | .get _ | .rst | .acc | .fin | .psh | .hdr | .cclose | .cverify => false

end Sys2Proof

namespace Sys2Proof.Machine

/-- The pairing state that a command which only sums and counts leaves in SUM and PEND (rule R44). -/
def SumsTo (i : Instr) (s : State) (st : Pairing) : Prop :=
  match i with
  | .nop => st = s.pairing
  | .acc | .hdr => ∃ bs, st = ⟨csum bs s.sum, s.pend⟩
  | .walk => st = ⟨s.sum, none⟩
  | .seg => ∃ bs, st = run s.pairing bs
  | .fin => st = finish s.pairing
  | .psh => st.pend = s.pend
  | .c4open | .c6open => st.pend = none
  | .cclose | .cverify => ∃ bs, st = ⟨csum bs (finish s.pairing).sum, none⟩
  | .set _ _ | .get _ | .rst => False

/-- The ends of a command: discarded in the faulted state (rule R202), refused with a fault (rule R200),
or completed: SET, GET and RST each in its own way, and every other command by writing SUM, PEND and the
walk's counters at most. -/
inductive Ends (i : Instr) (s : State) : State → Prop
  | discarded (hf : s.fault = true) (hrst : i ≠ .rst) : Ends i s s
  | faulted (hf : s.fault = false) (hi : i.canFault = true) (v : Violation) : Ends i s (s.raise v)
  | wrote {r : Reg} {imm : Word} (hi : i = .set r imm) : Ends i s (s.writeReg r imm)
  | responded {r : Reg} (hi : i = .get r) : Ends i s (s.respond (s.answer r))
  | reset (hi : i = .rst) : Ends i s s.resetRegs
  | summed (st : Pairing) (sk re : Word) (hsum : SumsTo i s st)
      (hcount : i.counts = false → sk = s.skip ∧ re = s.rem) :
      Ends i s ((s.withPairing st).withSelection sk re)

section
variable {s : State}

/-- A command that writes SUM alone. -/
theorem Ends.of_withSum {i : Instr} {v : Half} (h : SumsTo i s ⟨v, s.pend⟩) : Ends i s (s.withSum v) :=
  .summed ⟨v, s.pend⟩ s.skip s.rem h fun _ => ⟨rfl, rfl⟩

/-- A command that writes SUM and PEND. -/
theorem Ends.of_withPairing {i : Instr} {st : Pairing} (h : SumsTo i s st) :
    Ends i s (s.withPairing st) :=
  .summed st s.skip s.rem h fun _ => ⟨rfl, rfl⟩

/-- SET of operands that pass the checks writes the named register (rule R181). -/
theorem exec_set_of_none {r : Reg} {imm : Word} (hf : s.fault = false)
    (hv : setViolation? (upperHalf (encode (.set r imm))) r imm = none) :
    exec (.set r imm) s = .next (s.writeReg r imm) := by
  simp only [exec, execSet, hv, unlessFaulted_of_clear _ hf, settle_ok]

/-- C6OPEN takes the fault of its length check (rules R164, R200). -/
theorem exec_c6open_of_error {v : Violation} (hf : s.fault = false) (hu : s.icmp6Length = .error v) :
    exec .c6open s = .next (s.raise v) := by
  simp only [exec, execC6open, hu, unlessFaulted_of_clear _ hf, settle_error]

/-- C6OPEN with a length that fits starts from the pseudo-header's sum (rule R164). -/
theorem exec_c6open_of_ok {u : Word} (hf : s.fault = false) (hu : s.icmp6Length = .ok u) :
    exec .c6open s = .next ((s.withPairing
      ⟨s.pseudoSum u Config.icmp6NextHeader, none⟩).withSelection 0 s.size) := by
  simp only [exec, execC6open, hu, unlessFaulted_of_clear _ hf, settle_ok]

/-- In the faulted state a command is discarded, unless it is GET or RST (rule R202). -/
theorem exec_ends_of_fault (i : Instr) (hf : s.fault = true) : ∃ t, exec i s = .next t ∧ Ends i s t := by
  cases i with
  | get r => exact ⟨_, rfl, .responded rfl⟩
  | rst => exact ⟨_, rfl, .reset rfl⟩
  | nop | set | acc | walk | seg | fin | psh | hdr | c4open | c6open | cclose | cverify =>
    exact ⟨s, exec_of_fault hf nofun nofun, .discarded hf nofun⟩

/-- While no fault is latched a command completes, or takes the fault of the one check or read it
makes. -/
theorem exec_ends_of_clear (i : Instr) (hf : s.fault = false) :
    ∃ t, exec i s = .next t ∧ Ends i s t := by
  cases i with
  | nop => exact ⟨s, exec_nop s, .of_withPairing (st := s.pairing) rfl⟩
  | set r imm =>
    cases hv : setViolation? (upperHalf (encode (.set r imm))) r imm with
    | some v => exact ⟨_, exec_set_of_violation hf hv, .faulted hf rfl v⟩
    | none => exact ⟨_, exec_set_of_none hf hv, .wrote rfl⟩
  | get r => exact ⟨_, rfl, .responded rfl⟩
  | rst => exact ⟨_, rfl, .reset rfl⟩
  | acc =>
    cases hr : memRead s.mem s.addr.toNat s.len.toNat with
    | error v => exact ⟨_, exec_acc_of_error hf hr, .faulted hf rfl v⟩
    | ok bs => exact ⟨_, exec_acc_of_ok hf hr, .of_withSum ⟨bs, rfl⟩⟩
  | walk => exact ⟨_, exec_walk hf, .summed _ _ _ rfl nofun⟩
  | seg =>
    cases hr : s.readTaken with
    | error v => exact ⟨_, exec_seg_of_error hf hr, .faulted hf rfl v⟩
    | ok bs => exact ⟨_, exec_seg_of_ok hf hr, .summed _ _ _ ⟨bs, rfl⟩ nofun⟩
  | fin => exact ⟨_, exec_fin hf, .of_withPairing rfl⟩
  | psh => exact ⟨_, exec_psh hf, .of_withSum rfl⟩
  | hdr =>
    cases hr : s.readHeader with
    | error v => exact ⟨_, exec_of_readHeader_error (by decide) hf hr, .faulted hf rfl v⟩
    | ok h => exact ⟨_, exec_hdr_of_ok hf hr, .of_withSum ⟨_, rfl⟩⟩
  | c4open => exact ⟨_, exec_c4open hf, .summed _ _ _ rfl nofun⟩
  | c6open =>
    cases hu : s.icmp6Length with
    | error v => exact ⟨_, exec_c6open_of_error hf hu, .faulted hf rfl v⟩
    | ok u => exact ⟨_, exec_c6open_of_ok hf hu, .summed _ _ _ rfl nofun⟩
  | cclose =>
    cases hr : s.readHeader with
    | error v => exact ⟨_, exec_of_readHeader_error (by decide) hf hr, .faulted hf rfl v⟩
    | ok h => exact ⟨_, exec_cclose_of_ok hf hr, .of_withPairing ⟨_, rfl⟩⟩
  | cverify =>
    cases hr : s.readHeader with
    | error v => exact ⟨_, exec_of_readHeader_error (by decide) hf hr, .faulted hf rfl v⟩
    | ok h => exact ⟨_, exec_cverify_of_ok hf hr, .of_withPairing ⟨_, rfl⟩⟩

/-- Every command has a next state, and it is one of the ends (rule R8). -/
theorem exec_total (i : Instr) (s : State) : ∃ t, exec i s = .next t ∧ Ends i s t := by
  cases hf : s.fault with
  | true => exact exec_ends_of_fault i hf
  | false => exact exec_ends_of_clear i hf

/-- What a command leaves is one of its ends. -/
theorem exec_ends {i : Instr} {t : State} (h : exec i s = .next t) : Ends i s t := by
  obtain ⟨u, hu, hends⟩ := exec_total i s
  cases hu.symm.trans h
  exact hends

end

section
variable {i : Instr} {s t : State}

/-- No command stores (rule R62). -/
theorem Ends.mem_eq (h : Ends i s t) : t.mem = s.mem := by
  cases h with
  | wrote => exact writeReg_mem ..
  | discarded | faulted | responded | reset | summed => rfl

/-- No command touches what stands around the engine but the response port (rule R40). -/
theorem Ends.sameSurroundings (h : Ends i s t) : SameSurroundings s t := by
  cases h with
  | wrote => exact sameSurroundings_writeReg ..
  | discarded | faulted | responded | reset | summed => exact ⟨fun _ => rfl, rfl, rfl, rfl⟩

/-- Only GET responds (rule R183). -/
theorem Ends.port_eq (h : Ends i s t) (hget : ∀ r, i ≠ .get r) : t.port = s.port := by
  cases h with
  | wrote => exact writeReg_port ..
  | responded hi => exact absurd hi (hget _)
  | discarded | faulted | reset | summed => rfl

/-- The latch is written by RST, and by a command that takes a fault (rules R35, R200). -/
theorem Ends.sameLatch_or_raise (h : Ends i s t) (hrst : i ≠ .rst) : SameLatch s t ∨
    s.fault = false ∧ i.canFault = true ∧ ∃ v, t = s.raise v := by
  cases h with
  | faulted hf hi v => exact .inr ⟨hf, hi, v, rfl⟩
  | wrote => exact .inl (sameLatch_writeReg ..)
  | reset hi => exact absurd hi hrst
  | discarded | responded | summed => exact .inl ⟨rfl, rfl, rfl⟩

/-- A command that makes no check and no read leaves the latch (rule R44). -/
theorem Ends.sameLatch (h : Ends i s t) (hrst : i ≠ .rst) (hi : i.canFault = false) :
    SameLatch s t := by
  rcases h.sameLatch_or_raise hrst with hlatch | ⟨-, hfault, -⟩
  · exact hlatch
  · exact absurd (hi.symm.trans hfault) nofun

/-- RST has one end (rule R184). -/
theorem Ends.eq_resetRegs (h : Ends .rst s t) : t = s.resetRegs := by
  cases h with
  | reset => rfl
  | discarded hf hrst => exact absurd rfl hrst
  | faulted hf hi | wrote hi | responded hi => exact absurd hi nofun
  | summed st sk re hsum => exact hsum.elim

/-- FAULT becomes 1 only by a fault (rule R200). -/
theorem Ends.eq_raise (h : Ends i s t) (hs : s.fault = false) (ht : t.fault = true) :
    ∃ v, t = s.raise v := by
  by_cases hrst : i = .rst
  · subst hrst
    cases h.eq_resetRegs
    exact absurd ht nofun
  · rcases h.sameLatch_or_raise hrst with ⟨hfault, -, -⟩ | ⟨-, -, hraise⟩
    · exact absurd (ht.symm.trans (hfault.trans hs)) nofun
    · exact hraise

/-- Only SET and RST write the operand registers (rule R44). -/
theorem Ends.sameOperands (h : Ends i s t) (hrst : i ≠ .rst) (hset : ∀ r imm, i ≠ .set r imm) :
    SameOperands s t := by
  cases h with
  | wrote hi => exact absurd hi (hset _ _)
  | reset hi => exact absurd hi hrst
  | discarded | faulted | responded | summed => simp [SameOperands]

/-- The counters move only by the walk's own commands, the openings and RST (rule R44). -/
theorem Ends.sameSelection (h : Ends i s t) (hrst : i ≠ .rst) (hi : i.counts = false) :
    SameSelection s t := by
  cases h with
  | wrote => exact ⟨writeReg_skip .., writeReg_rem ..⟩
  | reset hi => exact absurd hi hrst
  | summed st sk re hsum hcount => exact hcount hi
  | discarded | faulted | responded => exact ⟨rfl, rfl⟩

/-- A write of another register leaves SUM. -/
theorem writeReg_sum_of_ne {r : Reg} (hr : r ≠ .sum) (imm : Word) : (s.writeReg r imm).sum = s.sum := by
  cases r
  case sum => contradiction
  all_goals rfl

/-- Where SUM stays (rule R44). -/
theorem Ends.sum_eq (h : Ends i s t)
    (hi : i = .nop ∨ i = .walk ∨ (∃ r, i = .get r) ∨ ∃ r imm, i = .set r imm ∧ r ≠ .sum) :
    t.sum = s.sum := by
  cases h with
  | discarded | faulted | responded => rfl
  | wrote hset =>
    obtain rfl | rfl | ⟨r, rfl⟩ | ⟨r, imm, rfl, hr⟩ := hi
    case inr.inr.inr =>
      cases hset
      exact writeReg_sum_of_ne hr _
    all_goals exact absurd hset nofun
  | reset hrst => simp [hrst] at hi
  | summed st sk re hsum =>
    obtain rfl | rfl | ⟨r, rfl⟩ | ⟨r, imm, rfl, -⟩ := hi
    · cases hsum; rfl
    · cases hsum; rfl
    · exact hsum.elim
    · exact hsum.elim

/-- Where PEND stays (rule R44). -/
theorem Ends.pend_eq (h : Ends i s t)
    (hi : i = .nop ∨ i = .acc ∨ i = .psh ∨ i = .hdr ∨ (∃ r, i = .get r) ∨ ∃ r imm, i = .set r imm) :
    t.pend = s.pend := by
  cases h with
  | discarded | faulted | responded => rfl
  | wrote => exact writeReg_pend ..
  | reset hrst => simp [hrst] at hi
  | summed st sk re hsum =>
    obtain rfl | rfl | rfl | rfl | ⟨r, rfl⟩ | ⟨r, imm, rfl⟩ := hi
    · cases hsum; rfl
    · obtain ⟨bs, rfl⟩ := hsum; rfl
    · exact hsum
    · obtain ⟨bs, rfl⟩ := hsum; rfl
    · exact hsum.elim
    · exact hsum.elim

end

/-- A fault shows in STATUS and FINFO alone (rules R36, R37, R200). -/
theorem readReg_raise_of_ne {s : State} {v : Violation} {q : Reg} (hstatus : q ≠ .status)
    (hfinfo : q ≠ .finfo) : (s.raise v).readReg q = s.readReg q := by
  cases q
  case status | finfo => contradiction
  all_goals rfl

/-- SET leaves the other registers as they read, but for the views of SUM and the latch (rule R44). -/
theorem readReg_of_set_ends {r : Reg} {imm : Word} {s t : State} (h : Ends (.set r imm) s t) {q : Reg}
    (hq : q ≠ r) (hviews : q ∉ [Reg.csum, .status, .finfo]) : t.readReg q = s.readReg q := by
  simp only [List.mem_cons, List.not_mem_nil, or_false, not_or] at hviews
  obtain ⟨hcsum, hstatus, hfinfo⟩ := hviews
  cases h with
  | discarded => rfl
  | faulted => exact readReg_raise_of_ne hstatus hfinfo
  | wrote hi =>
    cases hi
    exact readReg_writeReg_of_ne hq fun _ => ⟨hcsum, hstatus⟩
  | responded hi | reset hi => exact absurd hi nofun
  | summed st sk re hsum => exact hsum.elim

/-- Settles O35: each clause is the frame of the ends (rule R44) for the commands it names. -/
theorem commandsWriteOnlyTheirRegisters : Obligations.CommandsWriteOnlyTheirRegisters := by
  intro i s t hexec
  have h := exec_ends hexec
  refine ⟨h.sameSurroundings, h.sum_eq, h.pend_eq, ?selection, fun ⟨hrst, hset⟩ =>
    h.sameOperands hrst hset, ?latch, h.port_eq, ?registers, ?fault, ?sameFault⟩
  case selection =>
    rintro ⟨hrst, hwalk, hseg, hc4open, hc6open⟩
    refine h.sameSelection hrst ?_
    cases i
    case walk | seg | c4open | c6open | rst => contradiction
    all_goals rfl
  case latch =>
    rintro (rfl | rfl | rfl | rfl | rfl | ⟨r, rfl⟩) <;> exact h.sameLatch nofun rfl
  case registers =>
    rintro r imm rfl q
    exact readReg_of_set_ends h
  case fault =>
    intro hs ht
    obtain ⟨v, rfl⟩ := h.eq_raise hs ht
    rfl
  case sameFault =>
    intro hrst hfault
    rcases h.sameLatch_or_raise hrst with hlatch | ⟨hs, -, v, rfl⟩
    · exact hlatch
    · exact absurd (hfault.trans hs) nofun

end Sys2Proof.Machine

/-! What one command word and one step can do (rules R5, R21, R200, R202, R203), and the invariant. -/

namespace Sys2Proof.Machine

/-- The ends of a command word: the decoded command's, or, for a word that does not decode, its fault or
nothing (rules R84, R202). -/
inductive Issued (w : Cmd) (s : State) : State → Prop
  | executed {i : Instr} {t : State} (hd : decode w = .ok i) (h : Ends i s t) : Issued w s t
  | discarded (hd : ∀ i, decode w ≠ .ok i) (hf : s.fault = true) : Issued w s s
  | faulted (hd : ∀ i, decode w ≠ .ok i) (hf : s.fault = false) (v : Violation) : Issued w s (s.raise v)

/-- Every word has a next state, and it is one of the ends (rule R8). -/
theorem issue_total (w : Cmd) (s : State) : ∃ t, issue w s = .next t ∧ Issued w s t := by
  cases hd : decode w with
  | ok i =>
    obtain ⟨t, ht, hends⟩ := exec_total i s
    exact ⟨t, (issue_of_ok hd s).trans ht, .executed hd hends⟩
  | error v =>
    have hno : ∀ i, decode w ≠ .ok i := by simp [hd]
    refine ⟨_, issue_eq_of_error hd s, ?_⟩
    split_ifs with hf
    · exact .discarded hno hf
    · exact .faulted hno (Bool.eq_false_of_not_eq_true hf) v

/-- With no move of the host left the engine is idle (rule R208). -/
theorem step_idle {s : State} (hin : s.input = []) : step s = .next s := by
  simp only [step, stepMove, hin]

/-- The step makes the host's next move (rule R5). -/
theorem step_move {s : State} {m : HostMove} {rest : List HostMove} (hin : s.input = m :: rest) :
    step s = makeMove m (s.withInput rest) := by
  simp only [step, stepMove, hin]

/-- The step on a command word is one of the word's ends, after the word has left the host's list and the
position has advanced (rules R5, R21). -/
theorem issued_of_step {s t : State} {w : Cmd} {rest : List HostMove}
    (hin : s.input = .command w :: rest) (hstep : step s = .next t) :
    Issued w (s.withInput rest).advance t := by
  obtain ⟨u, hu, hissued⟩ := issue_total w (s.withInput rest).advance
  cases (hu.symm.trans (step_command hin).symm).trans hstep
  exact hissued

section
variable {w : Cmd} {s t : State}

theorem Issued.mem_eq (h : Issued w s t) : t.mem = s.mem := by
  cases h with
  | executed hd h => exact h.mem_eq
  | discarded | faulted => rfl

theorem Issued.sameSurroundings (h : Issued w s t) : SameSurroundings s t := by
  cases h with
  | executed hd h => exact h.sameSurroundings
  | discarded | faulted => exact ⟨fun _ => rfl, rfl, rfl, rfl⟩

/-- Only a word that decodes to GET responds (rule R183). -/
theorem Issued.port_eq (h : Issued w s t) (hget : ∀ r, decode w ≠ .ok (.get r)) : t.port = s.port := by
  cases h with
  | executed hd h => exact h.port_eq fun r hi => hget r (hi ▸ hd)
  | discarded | faulted => rfl

/-- FAULT becomes 1 only by a fault, of the decoder or of a command (rule R200). -/
theorem Issued.eq_raise (h : Issued w s t) (hs : s.fault = false) (ht : t.fault = true) :
    ∃ v, t = s.raise v := by
  cases h with
  | executed hd h => exact h.eq_raise hs ht
  | discarded hd hf => exact absurd (hs.symm.trans hf) nofun
  | faulted hd hf v => exact ⟨v, rfl⟩

/-- A word changes the latch by a fault, or by being RST (rules R84, R200). -/
theorem Issued.latch_cases (h : Issued w s t) :
    SameLatch s t ∨ (s.fault = false ∧ ∃ v, t = s.raise v) ∨
      decode w = .ok .rst ∧ t = s.resetRegs := by
  cases h with
  | @executed i _ hd h =>
    by_cases hrst : i = .rst
    · subst hrst
      exact .inr (.inr ⟨hd, h.eq_resetRegs⟩)
    · rcases h.sameLatch_or_raise hrst with hlatch | ⟨hf, -, hraise⟩
      · exact .inl hlatch
      · exact .inr (.inl ⟨hf, hraise⟩)
  | discarded => exact .inl ⟨rfl, rfl, rfl⟩
  | faulted hd hf v => exact .inr (.inl ⟨hf, v, rfl⟩)

end

/-- Settles O5: the step on a command word, with the word's decoding put in. -/
theorem stepRunsTheDecodedCommand : Obligations.StepRunsTheDecodedCommand :=
  fun _ _ _ _ hin hd => (step_command hin).trans (issue_of_ok hd _)

/-- Settles O32: FAULT becomes 1 by one operation, which writes the latch alone. -/
theorem faultEntryChangesOnlyTheLatch : Obligations.FaultEntryChangesOnlyTheLatch := by
  intro s t w rest hs hin hstep ht
  obtain ⟨v, rfl⟩ := (issued_of_step hin hstep).eq_raise hs ht
  rfl

/-- Settles O34: no end of a word but RST's, and no move of the host but the reset input, clears a latch
that is set. -/
theorem onlyResetLeavesTheFaultedState : Obligations.OnlyResetLeavesTheFaultedState := by
  intro s t hs hstep ht
  have hkeeps {u : State} (hu : u.fault = s.fault) : u ≠ t := by
    rintro rfl
    exact absurd (ht.symm.trans (hu.trans hs)) nofun
  cases hin : s.input with
  | nil => exact absurd (Host.Outcome.next.inj ((step_idle hin).symm.trans hstep)) (hkeeps rfl)
  | cons move rest =>
    cases move with
    | command w =>
      rcases (issued_of_step hin hstep).latch_cases with hlatch | ⟨hf, -⟩ | ⟨hd, rfl⟩
      · exact absurd rfl (hkeeps hlatch.1)
      · exact absurd (hs.symm.trans hf) nofun
      · have hw : w = 0x0300000000000000 := (encode_of_decode hd).symm
        exact ⟨.inl ⟨rest, by rw [hw]⟩, rfl⟩
    | memory a v =>
      exact absurd (Host.Outcome.next.inj ((step_move hin).symm.trans hstep)) (hkeeps rfl)
    | takeResponse =>
      exact absurd (Host.Outcome.next.inj ((step_move hin).symm.trans hstep))
        (hkeeps (takeResponse_fault _))
    | reset =>
      cases (step_move hin).symm.trans hstep
      exact ⟨.inr ⟨rest, rfl⟩, rfl⟩

/-- Settles O36: the word is taken before it is issued, and no word touches what stands around the
engine. -/
theorem everyCommandAdvancesByOneAndStoresNothing :
    Obligations.EveryCommandAdvancesByOneAndStoresNothing := by
  intro s t w rest hin hstep
  obtain ⟨hmem, hinput, hpos, hreceived⟩ := (issued_of_step hin hstep).sameSurroundings
  exact ⟨hinput, hpos, hreceived, hmem⟩

/-- Settles O37: each move of the host has its next state. -/
theorem everyStateHasANextState : Obligations.EveryStateHasANextState := by
  intro s
  cases hin : s.input with
  | nil => exact ⟨s, step_idle hin⟩
  | cons move rest =>
    cases move with
    | command w =>
      obtain ⟨t, ht, -⟩ := issue_total w (s.withInput rest).advance
      exact ⟨t, (step_command hin).trans ht⟩
    | memory | takeResponse | reset => exact ⟨_, step_move hin⟩

/-- Settles O38: GET responds in every state, and no other end of a word touches the port. -/
theorem onlyGetRespondsAndOnlyOnce : Obligations.OnlyGetRespondsAndOnlyOnce := by
  intro s t w rest hin hstep
  refine ⟨fun r hd => ?responds, (issued_of_step hin hstep).port_eq⟩
  cases ((stepRunsTheDecodedCommand s w rest _ hin hd).symm.trans hstep)
  rfl

/-! The invariant (rule R41). -/

theorem latchLegal_of_sameLatch {s t : State} (h : SameLatch s t) (hs : s.LatchLegal) : t.LatchLegal := by
  obtain ⟨hfault, hcause, hfinfo⟩ := h
  simpa only [State.LatchLegal, hfault, hcause, hfinfo] using hs

/-- A fault latches one of the six codes (rule R191). -/
theorem latchLegal_raise (s : State) (v : Violation) : (s.raise v).LatchLegal :=
  ⟨nofun, fun _ => ⟨v.cause, rfl⟩⟩

/-- Reset clears the whole latch (rule R43). -/
theorem latchLegal_resetRegs (s : State) : s.resetRegs.LatchLegal := ⟨fun _ => ⟨rfl, rfl⟩, nofun⟩

/-- Settles O40: the reset state lists no address, and its latch is clear. -/
theorem invariantHoldsAtReset : Obligations.InvariantHoldsAtReset :=
  ⟨reset_memory_wf, latchLegal_resetRegs State.reset⟩

theorem Issued.inv {w : Cmd} {s t : State} (h : Issued w s t) (hs : s.Inv) : t.Inv := by
  have ⟨hmem, hlatch⟩ := hs
  refine ⟨by rwa [h.mem_eq], ?_⟩
  rcases h.latch_cases with hsame | ⟨-, v, rfl⟩ | ⟨-, rfl⟩
  · exact latchLegal_of_sameLatch hsame hlatch
  · exact latchLegal_raise s v
  · exact latchLegal_resetRegs s

/-- Settles O39: a word keeps memory and leaves a legal latch, and the host's other moves keep the latch
or reset it, and put a byte inside the address space at most. -/
theorem everyStepKeepsTheInvariant : Obligations.EveryStepKeepsTheInvariant := by
  intro s t hs hstep
  have ⟨hmem, hlatch⟩ := hs
  cases hin : s.input with
  | nil =>
    cases (step_idle hin).symm.trans hstep
    exact hs
  | cons move rest =>
    cases move with
    | command w => exact (issued_of_step hin hstep).inv hs
    | memory a v =>
      cases (step_move hin).symm.trans hstep
      exact ⟨Memory.put_wf hmem a.isLt, hlatch⟩
    | takeResponse =>
      cases (step_move hin).symm.trans hstep
      exact ⟨by rwa [takeResponse_mem], latchLegal_of_sameLatch
        ⟨takeResponse_fault _, takeResponse_cause _, takeResponse_finfo _⟩ hlatch⟩
    | reset =>
      cases (step_move hin).symm.trans hstep
      exact ⟨hmem, latchLegal_resetRegs s⟩

end Sys2Proof.Machine

/-! A SUM that is not zero stays so, and SEG only counts down (10_state.md section 7 items 3 and 4). -/

namespace Sys2Proof.Machine

theorem ocadd_ne_zero {a : Half} (ha : a ≠ 0) (b : Half) : ocadd a b ≠ 0 :=
  fun h => ha (ocadd_eq_zero_iff.mp h).1

theorem consume_sum_ne_zero {st : Pairing} (h : st.sum ≠ 0) (b : Byte) : (consume st b).sum ≠ 0 := by
  unfold consume
  split
  · exact h
  · exact ocadd_ne_zero h _

theorem run_sum_ne_zero (bs : List Byte) : ∀ {st : Pairing}, st.sum ≠ 0 → (run st bs).sum ≠ 0 := by
  induction bs with
  | nil => exact id
  | cons b bs ih => exact fun h => ih (consume_sum_ne_zero h b)

theorem finish_sum_ne_zero {st : Pairing} (h : st.sum ≠ 0) : (finish st).sum ≠ 0 := by
  unfold finish
  split
  · exact h
  · exact ocadd_ne_zero h _

theorem csum_ne_zero {i : Half} (h : i ≠ 0) (bs : List Byte) : csum bs i ≠ 0 :=
  finish_sum_ne_zero (run_sum_ne_zero bs h)

/-- Settles O42: the commands left are sums onto the old SUM, and no addition returns to 0. -/
theorem nonZeroSumNeverReturnsToZero : Obligations.NonZeroSumNeverReturnsToZero := by
  intro i s t hs hset hpsh hc4open hc6open hrst hexec
  cases exec_ends hexec with
  | discarded | faulted | responded => exact hs
  | wrote hi => exact absurd hi (hset _ _)
  | reset hi => exact absurd hi hrst
  | summed st sk re hsum =>
    show st.sum ≠ 0
    cases i with
    | nop | walk => cases hsum; exact hs
    | acc | hdr => obtain ⟨bs, rfl⟩ := hsum; exact csum_ne_zero hs bs
    | seg => obtain ⟨bs, rfl⟩ := hsum; exact run_sum_ne_zero bs hs
    | fin => cases hsum; exact finish_sum_ne_zero hs
    | cclose | cverify => obtain ⟨bs, rfl⟩ := hsum; exact csum_ne_zero (finish_sum_ne_zero hs) bs
    | psh | c4open | c6open => contradiction
    | set | get | rst => exact hsum.elim

/-- A counter less what one SEG counts is no larger. -/
theorem toNat_ofNat_sub_le (x : Word) (k : Nat) : (BitVec.ofNat 32 (x.toNat - k)).toNat ≤ x.toNat := by
  rw [BitVec.toNat_ofNat]
  exact (Nat.mod_le _ _).trans (Nat.sub_le _ _)

/-- Settles O41: SEG leaves the counters or subtracts from them. -/
theorem segNeverIncreasesTheCounters : Obligations.SegNeverIncreasesTheCounters := by
  intro s t hexec
  cases hf : s.fault with
  | true =>
    cases (exec_of_fault (i := .seg) hf nofun nofun).symm.trans hexec
    exact ⟨le_refl _, le_refl _⟩
  | false =>
    cases hr : s.readTaken with
    | error v =>
      cases (exec_seg_of_error hf hr).symm.trans hexec
      exact ⟨le_refl _, le_refl _⟩
    | ok bs =>
      cases (exec_seg_of_ok hf hr).symm.trans hexec
      exact ⟨toNat_ofNat_sub_le _ _, toNat_ofNat_sub_le _ _⟩

end Sys2Proof.Machine

/-! What GET answers (rules R25, R34, R36, R182). -/

namespace Sys2Proof.Machine

/-- Settles O15: GET does not test FAULT but in its answer; a GET of an unassigned index does not
decode. -/
theorem getAsSpecified : Obligations.GetAsSpecified := by
  refine ⟨fun r => ?word, fun r s hf hr => ?withheld, fun r s hr => ?answered,
    fun k s rest hk hin => ?unassigned⟩
  case word =>
    have hop : (0x02 : BitVec 8).toNat = 2 := rfl
    have himm : (0 : Word).toNat = 0 := rfl
    have hword : encode (.get r) = commandWord 0x02 r.index 0 := rfl
    rw [hword, commandWord_toNat, hop, himm, Nat.add_zero]
  case withheld => rw [exec_get_of_fault hf, if_pos hr]; rfl
  case answered =>
    have hnot : ¬(s.fault = true ∧ (r = .sum ∨ r = .csum)) := by
      rintro ⟨hf, hview⟩
      rcases hr with hclear | ⟨hsum, hcsum⟩
      · exact absurd (hf.symm.trans hclear) nofun
      · exact hview.elim hsum hcsum
    simp only [exec, execGet, State.answer, if_neg hnot]
    rfl
  case unassigned =>
    have hform : opForm? (opField (commandWord 0x02 k 0)) = some .r := by
      rw [opField_commandWord, opForm_r_iff]
    have hnone : Reg.ofIndex (rField (commandWord 0x02 k 0)) = none := by
      rwa [rField_commandWord, ofIndex_none_iff]
    have hd := decode_get_unassigned hform (zField_commandWord ..) (immField_commandWord ..) hnone
    exact (step_command hin).trans (issue_eq_of_error hd _)

/-- STATUS by the places of its fields (rule R36). -/
theorem statusView_toNat (s : State) : s.statusView.toNat =
    256 * s.cause.toNat + 8 * s.seldone.toNat + 4 * s.pendv.toNat + 2 * s.vok.toNat + s.fault.toNat := by
  simp only [State.statusView, toNat_append_add, BitVec.toNat_ofBool, BitVec.toNat_ofNat]
  omega

theorem pendView_toNat_of_none {s : State} (h : s.pend = none) : s.pendView.toNat = 0 := by
  simp only [State.pendView, h]
  rfl

/-- A pending byte reads with PEND.V above it (rule R25). -/
theorem pendView_toNat_of_some {s : State} {b : Byte} (h : s.pend = some b) :
    s.pendView.toNat = 0x100 + b.toNat := by
  simp only [State.pendView, h]
  exact toNat_append_add 1#1 b

/-- A flag in a field of STATUS, as the condition it stands for. -/
theorem mul_toNat_eq_ite {b : Bool} {p : Prop} [Decidable p] (k : Nat) (h : b = true ↔ p) :
    k * b.toNat = if p then k else 0 := by
  cases b with
  | false => rw [if_neg (mt h.mpr nofun)]; rfl
  | true => rw [if_pos (h.mp rfl)]; exact Nat.mul_one k

/-- Settles O16: the fields by computation, the four narrow registers as numbers. -/
theorem computedViewsReadAsSpecified : Obligations.ComputedViewsReadAsSpecified := by
  refine fun s => ⟨rfl, ?sum, ?pend, ?csum, ?proto, ?status⟩
  case sum => exact BitVec.toNat_setWidth_of_le (by decide)
  case pend =>
    have hread : (s.readReg .pend).toNat = s.pendView.toNat := BitVec.toNat_setWidth_of_le (by decide)
    rw [hread]
    cases hp : s.pend with
    | none => exact pendView_toNat_of_none hp
    | some b => exact pendView_toNat_of_some hp
  case csum => exact (BitVec.toNat_setWidth_of_le (b := s.csumView) (by decide)).trans BitVec.toNat_not
  case proto => exact BitVec.toNat_setWidth_of_le (by decide)
  case status =>
    have hfault := mul_toNat_eq_ite 1 (Iff.refl (s.fault = true))
    have hvok : s.vok = true ↔ s.fault = false ∧ s.sum = 0xFFFF := by simp [State.vok]
    have hpendv : 4 * s.pendv.toNat = if s.pend = none then 0 else 4 := by
      cases hp : s.pend <;> simp [State.pendv, hp]
    have hseldone : s.seldone = true ↔ s.rem = 0 := beq_iff_eq
    rw [State.readReg, BitVec.toNat_setWidth_of_le (by decide), statusView_toNat, ← hfault,
      ← mul_toNat_eq_ite 2 hvok, ← hpendv, ← mul_toNat_eq_ite 8 hseldone]
    omega

end Sys2Proof.Machine

/-! The pseudo-header's bytes and sum (spec/43_pseudo_header.md section 1), and C6OPEN on them. -/

namespace Sys2Proof.Machine

/-- Settles O24: each of the 16 bytes of an address at its own index, and the parts of the pseudo-header
one after the other. -/
theorem pseudoHeaderBytesAreBigEndian : Obligations.PseudoHeaderBytesAreBigEndian := by
  refine ⟨fun s k hk => ?address, fun src dst ulen proto hsrc hdst => ⟨?length, ?src, ?dst, ?rest⟩⟩
  case address => interval_cases k <;> exact ⟨_, _, rfl, rfl, rfl, rfl⟩
  case length => simp [pseudo, hsrc, hdst, wordBytes_length, Config.pshPad]
  all_goals simp only [pseudo, List.append_assoc]
  case src => exact List.take_left' hsrc
  case dst => rw [List.drop_left' hsrc, List.take_left' hdst]
  case rest =>
    rw [← List.append_assoc, List.drop_left' (by simp [hsrc, hdst])]
    rfl

/-- A register in front of a sequence fills two words with its halves. -/
theorem wordSum_wordBytes_append (w : Word) (bs : List Byte) :
    wordSum (wordBytes w ++ bs) = w.toNat / 2 ^ 16 + w.toNat % 2 ^ 16 + wordSum bs := by
  rw [wordSum_append _ _ (by rw [wordBytes_length]), wordSum_wordBytes]

/-- The padding puts the protocol number in the low byte of the last word (rule R152). -/
theorem wordSum_padded (proto : Byte) :
    wordSum (List.replicate Config.pshPad 0 ++ [proto]) = proto.toNat := by
  simp [Config.pshPad, List.replicate, wordSum]

/-- Settles O23: the registers fill whole words, and the protocol number ends the last one. -/
theorem pseudoHeaderSumInRegisterHalves : Obligations.PseudoHeaderSumInRegisterHalves := by
  intro s ulen proto
  rw [State.pseudoSum, csumIsTheFoldOfItsWords]
  refine congrArg fold ?_
  simp only [pseudo, State.srcBytes, State.dstBytes, List.append_assoc, wordSum_wordBytes_append,
    wordSum_padded, List.map_cons, List.map_nil, List.sum_cons, List.sum_nil]
  have hzero : (0 : Half).toNat = 0 := rfl
  omega

/-- The length check of C6OPEN (rule R164). -/
theorem icmp6Length_of_long {s : State} (h : 2 ^ 32 ≤ s.hlen.toNat + s.size.toNat) :
    s.icmp6Length = .error ⟨.illValue, BitVec.ofNat 32 (s.hlen.toNat + s.size.toNat)⟩ :=
  if_pos h

theorem icmp6Length_of_eq {s : State} {u : Word} (h : u.toNat = s.hlen.toNat + s.size.toNat) :
    s.icmp6Length = .ok u := by
  have hfits : ¬ 2 ^ 32 ≤ s.hlen.toNat + s.size.toNat := h ▸ Nat.not_le.mpr u.isLt
  have hu : BitVec.ofNat 32 (s.hlen.toNat + s.size.toNat) = u := by
    rw [← h, BitVec.ofNat_toNat, BitVec.setWidth_eq]
  exact (if_neg hfits).trans (congrArg Except.ok hu)

/-- Settles O28: the length check's two answers are the two ends of C6OPEN. -/
theorem c6openAsSpecified : Obligations.C6openAsSpecified :=
  ⟨by decide, fun _ hf => ⟨fun h => exec_c6open_of_error hf (icmp6Length_of_long h),
    fun _ hu => exec_c6open_of_ok hf (icmp6Length_of_eq hu)⟩⟩

end Sys2Proof.Machine

/-! Reset, and the host's other moves (spec/70_reset_and_hazards.md, spec/60_exceptions.md). -/

namespace Sys2Proof.Machine

/-- Settles O53: the reset state holds the listed values by definition, and its views by computation. -/
theorem resetStateAsListed : Obligations.ResetStateAsListed := by
  unfold Obligations.ResetStateAsListed
  decide

/-- Settles O54: RST and the reset input share `resetRegs`; the input empties the port besides. -/
theorem resetInputRestoresTheResetState : Obligations.ResetInputRestoresTheResetState :=
  fun _ _ => ⟨step_move, rfl⟩

/-- After reset every range is empty, so every command completes (70_reset_and_hazards.md section 1). -/
theorem exec_reset_clear (i : Instr) (h : i.wf = true) :
    ∃ t, exec i State.reset = .next t ∧ t.fault = false := by
  cases i with
  | set r imm => exact ⟨_, exec_set_of_none rfl (setViolation_eq_none_iff.mpr h), writeReg_fault ..⟩
  | nop | get | rst | acc | walk | seg | fin | psh | hdr | c4open | c6open | cclose | cverify =>
    exact ⟨_, rfl, rfl⟩

/-- Settles O55: the two sums are those of an all-zero pseudo-header, but for C6OPEN's protocol number. -/
theorem everyCommandIsSafeAfterReset : Obligations.EveryCommandIsSafeAfterReset := by
  intro i hwf
  obtain ⟨t, ht, hclear⟩ := exec_reset_clear i hwf
  refine ⟨t, ht, hclear, ?psh, ?c6open⟩
  case psh =>
    rintro rfl
    cases (exec_psh rfl).symm.trans ht
    decide
  case c6open =>
    rintro rfl
    cases (exec_c6open_of_ok rfl (icmp6Length_of_eq (u := 0) rfl)).symm.trans ht
    decide

/-- Settles O56: the host's change is one `put`, and a `put` is read back at its address alone. -/
theorem hostMemoryChangeIsSeen : Obligations.HostMemoryChangeIsSeen :=
  fun _ _ _ _ hwf hin => ⟨_, step_move hin, fun x => Memory.read_put x hwf⟩

/-- From an empty port the host takes nothing (rule R212). -/
theorem takeResponse_of_nil {s : State} (h : s.port = []) : s.takeResponse = s := by
  simp only [State.takeResponse, h]

/-- The host takes the oldest response (rule R183). -/
theorem takeResponse_of_cons {s : State} {r : Response} {later : List Response}
    (h : s.port = r :: later) :
    s.takeResponse = { s with port := later, received := s.received ++ [r] } := by
  simp only [State.takeResponse, h]

/-- Settles O57: an empty list of moves is idle, and a response moves over from the front of the port. -/
theorem idleKeepsStateAndResponsesLeaveInOrder :
    Obligations.IdleKeepsStateAndResponsesLeaveInOrder := by
  refine ⟨fun _ => step_idle, fun s rest r later hin hport => ?taken, fun s rest hin hport => ?empty⟩
  case taken =>
    exact (step_move hin).trans
      (congrArg Host.Outcome.next (takeResponse_of_cons (s := s.withInput rest) hport))
  case empty =>
    exact (step_move hin).trans
      (congrArg Host.Outcome.next (takeResponse_of_nil (s := s.withInput rest) hport))

end Sys2Proof.Machine

/-! Which bytes of memory a command depends on (20_memory.md section 9, rules R68, R73). -/

namespace Sys2Proof.Machine

/-- The read a command makes before it changes anything; a command that makes none reads as the empty
range (rule R73). -/
def commandRead (i : Instr) (s : State) : Except Violation (List Byte) :=
  match i with
  | .acc => s.readSegment
  | .seg => s.readTaken
  | .hdr | .cclose | .cverify => s.readHeader
  | .nop | .set _ _ | .get _ | .rst | .walk | .fin | .psh | .c4open | .c6open => .ok []

section
variable {i : Instr} {s t : State} {m : Memory}

theorem readReg_setMem (r : Reg) : ({ s with mem := m } : State).readReg r = s.readReg r := by
  cases r <;> rfl

theorem writeReg_setMem (r : Reg) (imm : Word) :
    ({ s with mem := m } : State).writeReg r imm = { s.writeReg r imm with mem := m } := by
  cases r <;> rfl

/-- No register is read from memory. -/
theorem exec_get_setMem {r : Reg} (hexec : exec (.get r) s = .next t) :
    exec (.get r) { s with mem := m } = .next { t with mem := m } := by
  cases hexec
  simp only [exec, execGet, State.answer, readReg_setMem]
  rfl

/-- While no fault is latched a command sees memory only through its read. -/
theorem exec_setMem_of_clear (hf : s.fault = false)
    (hread : commandRead i { s with mem := m } = commandRead i s) (hexec : exec i s = .next t) :
    exec i { s with mem := m } = .next { t with mem := m } := by
  cases i with
  | nop => cases (exec_nop s).symm.trans hexec; exact exec_nop _
  | set r imm =>
    cases hv : setViolation? (upperHalf (encode (.set r imm))) r imm with
    | some v => cases (exec_set_of_violation hf hv).symm.trans hexec; exact exec_set_of_violation hf hv
    | none =>
      cases (exec_set_of_none hf hv).symm.trans hexec
      rw [← writeReg_setMem]
      exact exec_set_of_none hf hv
  | get r => exact exec_get_setMem hexec
  | rst => cases hexec; rfl
  | acc =>
    cases hr : s.readSegment with
    | error v =>
      cases (exec_acc_of_error hf hr).symm.trans hexec
      exact exec_acc_of_error hf (hread.trans hr)
    | ok bs =>
      cases (exec_acc_of_ok hf hr).symm.trans hexec
      exact exec_acc_of_ok hf (hread.trans hr)
  | walk => cases (exec_walk hf).symm.trans hexec; exact exec_walk hf
  | seg =>
    cases hr : s.readTaken with
    | error v =>
      cases (exec_seg_of_error hf hr).symm.trans hexec
      exact exec_seg_of_error hf (hread.trans hr)
    | ok bs =>
      cases (exec_seg_of_ok hf hr).symm.trans hexec
      exact exec_seg_of_ok hf (hread.trans hr)
  | fin => cases (exec_fin hf).symm.trans hexec; exact exec_fin hf
  | psh => cases (exec_psh hf).symm.trans hexec; exact exec_psh hf
  | hdr =>
    cases hr : s.readHeader with
    | error v =>
      cases (exec_of_readHeader_error (by decide) hf hr).symm.trans hexec
      exact exec_of_readHeader_error (by decide) hf (hread.trans hr)
    | ok h =>
      cases (exec_hdr_of_ok hf hr).symm.trans hexec
      exact exec_hdr_of_ok hf (hread.trans hr)
  | c4open => cases (exec_c4open hf).symm.trans hexec; exact exec_c4open hf
  | c6open =>
    cases hu : s.icmp6Length with
    | error v => cases (exec_c6open_of_error hf hu).symm.trans hexec; exact exec_c6open_of_error hf hu
    | ok u => cases (exec_c6open_of_ok hf hu).symm.trans hexec; exact exec_c6open_of_ok hf hu
  | cclose =>
    cases hr : s.readHeader with
    | error v =>
      cases (exec_of_readHeader_error (by decide) hf hr).symm.trans hexec
      exact exec_of_readHeader_error (by decide) hf (hread.trans hr)
    | ok h =>
      cases (exec_cclose_of_ok hf hr).symm.trans hexec
      exact exec_cclose_of_ok hf (hread.trans hr)
  | cverify =>
    cases hr : s.readHeader with
    | error v =>
      cases (exec_of_readHeader_error (by decide) hf hr).symm.trans hexec
      exact exec_of_readHeader_error (by decide) hf (hread.trans hr)
    | ok h =>
      cases (exec_cverify_of_ok hf hr).symm.trans hexec
      exact exec_cverify_of_ok hf (hread.trans hr)

/-- In the faulted state no command looks at memory (rule R202). -/
theorem exec_setMem_of_fault (hf : s.fault = true) (hexec : exec i s = .next t) :
    exec i { s with mem := m } = .next { t with mem := m } := by
  by_cases hrst : i = .rst
  · subst hrst
    cases hexec
    rfl
  by_cases hget : ∃ r, i = .get r
  · obtain ⟨r, rfl⟩ := hget
    exact exec_get_setMem hexec
  · have hget' := not_exists.mp hget
    cases (exec_of_fault hf hrst hget').symm.trans hexec
    exact exec_of_fault hf hrst hget'

/-- Memories that agree on the addresses of rule R73's table give a command the same read. -/
theorem commandRead_congr (h : ∀ a, Reads i s a → Memory.read m a = Memory.read s.mem a) :
    commandRead i { s with mem := m } = commandRead i s := by
  cases i with
  | acc => exact memRead_congr fun a hlo hhi => h a ⟨hlo, hhi⟩
  | seg =>
    have htaken : memRead m (s.addr.toNat + s.segSkip) s.segTake =
        memRead s.mem (s.addr.toNat + s.segSkip) s.segTake :=
      memRead_congr fun a hlo hhi => h a ⟨hlo, hhi⟩
    simp only [commandRead, State.readTaken, ← htaken]
    rfl
  | hdr | cclose | cverify => exact memRead_congr fun a hlo hhi => h a ⟨hlo, hhi⟩
  | nop | set | get | rst | walk | fin | psh | c4open | c6open => rfl

end

/-- Settles O43: the read is the same, and nothing else of a command sees memory. -/
theorem commandsDependOnlyOnTheBytesTheyRead : Obligations.CommandsDependOnlyOnTheBytesTheyRead := by
  intro i s t m h hexec
  rcases Bool.eq_false_or_eq_true s.fault with hf | hf
  · exact exec_setMem_of_fault hf hexec
  · exact exec_setMem_of_clear hf (commandRead_congr h) hexec

end Sys2Proof.Machine

/-! The checksum field of a header (44_composers.md section 1, rule R161). -/

namespace Sys2Proof.Machine

/-- `MemRead` succeeds with exactly the bytes of a range inside the address space (rule R63). -/
theorem memRead_ok_iff {m : Memory} {a n : Nat} {bs : List Byte} : memRead m a n = .ok bs ↔
    a + n ≤ 2 ^ 32 ∧ bs.length = n ∧ HoldsBytes m a bs := by
  by_cases hle : a + n ≤ 2 ^ 32
  · rw [memRead_eq_readBytes hle, readBytes_ok_iff]
    exact ⟨fun h => ⟨hle, h⟩, fun h => h.2⟩
  · rw [memRead_of_wrap (by omega)]
    exact ⟨nofun, fun h => absurd h.1 hle⟩

/-- Whether a range is answered does not depend on the bytes in it (rule R63). -/
theorem memRead_of_samePopulated {m m' : Memory}
    (hpop : ∀ a, (Memory.read m' a).isSome = (Memory.read m a).isSome) (a n : Nat) :
    (∃ v, memRead m a n = .error v ∧ memRead m' a n = .error v) ∨
      ∃ bs bs', memRead m a n = .ok bs ∧ memRead m' a n = .ok bs' := by
  have hnone (x : Nat) : Memory.read m' x = none ↔ Memory.read m x = none := by
    rw [← Option.isNone_iff_eq_none, ← Option.isNone_iff_eq_none, ← Option.not_isSome, hpop,
      Option.not_isSome]
  have hfirst (x : Nat) : FirstUnanswered m' a n x ↔ FirstUnanswered m a n x := by
    simp only [FirstUnanswered, hnone, ne_eq]
  rcases memRead_cases m a n with ⟨hwrap, hr⟩ | ⟨hle, x, hx, hr⟩ | ⟨hle, bs, -, -, hr⟩
  · exact .inl ⟨_, hr, memRead_of_wrap hwrap⟩
  · refine .inl ⟨_, hr, ?_⟩
    rw [memRead_eq_readBytes hle]
    exact readBytes_error_iff.mpr ⟨x, (hfirst x).mpr hx, rfl⟩
  · cases hr' : memRead m' a n with
    | ok bs' => exact .inr ⟨bs, bs', hr, rfl⟩
    | error v =>
      rw [memRead_eq_readBytes hle] at hr hr'
      obtain ⟨x, hx, -⟩ := readBytes_error_iff.mp hr'
      exact nomatch hr.symm.trans (readBytes_error_iff.mpr ⟨x, (hfirst x).mp hx, rfl⟩)

/-- Headers of one length that agree outside the field have the same masked header. -/
theorem masked_congr {h h' : List Byte} {c : Nat} (hlen : h.length = h'.length)
    (hout : ∀ (j : Nat) (hj : j < h.length) (hj' : j < h'.length), j ≠ c → j ≠ c + 1 → h[j] = h'[j]) :
    masked h c = masked h' c := by
  refine List.ext_getElem (by rw [masked_length, masked_length, hlen]) fun j hj hj' => ?_
  simp only [masked_length] at hj hj'
  simp only [masked, List.getElem_mapIdx]
  split_ifs with hfield
  · rfl
  · obtain ⟨hc, hc1⟩ := not_or.mp hfield
    exact hout j hj hj' hc hc1

/-- A byte that stands in memory is the byte read there. -/
theorem read_of_holdsBytes {m : Memory} {a : Nat} {bs : List Byte} (h : HoldsBytes m a bs) {j : Nat}
    (hj : j < bs.length) : Memory.read m (a + j) = some bs[j] :=
  h j _ (List.getElem?_eq_getElem hj)

/-- A memory that differs in the bytes of the field alone gives the same fault, or the same masked
header. -/
theorem readHeader_of_sameOutsideField {s : State} {m : Memory}
    (hout : ∀ a, a ≠ s.haddr.toNat + s.coff.toNat → a ≠ s.haddr.toNat + s.coff.toNat + 1 →
      Memory.read m a = Memory.read s.mem a)
    (hpop : ∀ a, (Memory.read m a).isSome = (Memory.read s.mem a).isSome) :
    (∃ v, s.readHeader = .error v ∧ State.readHeader { s with mem := m } = .error v) ∨
      ∃ h h', s.readHeader = .ok h ∧ State.readHeader { s with mem := m } = .ok h' ∧
        masked h' s.coff.toNat = masked h s.coff.toNat := by
  refine (memRead_of_samePopulated hpop s.haddr.toNat s.hlen.toNat).imp_right ?_
  rintro ⟨h, h', hr, hr'⟩
  obtain ⟨-, hlen, hbs⟩ := memRead_ok_iff.mp hr
  obtain ⟨-, hlen', hbs'⟩ := memRead_ok_iff.mp hr'
  refine ⟨h, h', hr, hr', masked_congr (hlen'.trans hlen.symm) fun j hj' hj hc hc1 => ?_⟩
  have hsame := hout (s.haddr.toNat + j) (by omega) (by omega)
  rw [read_of_holdsBytes hbs' hj', read_of_holdsBytes hbs hj] at hsame
  exact Option.some.inj hsame

/-- Settles O44: HDR and CCLOSE take the same fault, or sum the same masked header. -/
theorem headerFieldBytesAreIgnored : Obligations.HeaderFieldBytesAreIgnored := by
  intro i s t m hi hout hpop hexec
  rcases Bool.eq_false_or_eq_true s.fault with hf | hf
  · exact exec_setMem_of_fault hf hexec
  rcases readHeader_of_sameOutsideField hout hpop with ⟨v, hr, hr'⟩ | ⟨h, h', hr, hr', hmasked⟩
  · have hheader : i ∈ [Instr.hdr, .cclose, .cverify] := by rcases hi with rfl | rfl <;> decide
    cases (exec_of_readHeader_error hheader hf hr).symm.trans hexec
    exact exec_of_readHeader_error (s := { s with mem := m }) hheader hf hr'
  · rcases hi with rfl | rfl
    · cases (exec_hdr_of_ok hf hr).symm.trans hexec
      rw [← hmasked]
      exact exec_hdr_of_ok (s := { s with mem := m }) hf hr'
    · cases (exec_cclose_of_ok hf hr).symm.trans hexec
      rw [← hmasked]
      exact exec_cclose_of_ok (s := { s with mem := m }) hf hr'

end Sys2Proof.Machine

/-! The scalar contract (41_accumulator.md). -/

namespace Sys2Proof.Machine

/-- A 16-bit value fits SUM and is what SET leaves there (rule R181). -/
theorem exec_setSum {s : State} (hf : s.fault = false) (init : Half) :
    exec (.set .sum (init.setWidth 32)) s = .next { s with sum := init } := by
  have hfits : Reg.fits .sum (init.setWidth 32) = true := by
    have hlt := init.isLt
    simp only [Reg.fits, Reg.width, BitVec.toNat_setWidth_of_le (show 16 ≤ 32 by decide),
      decide_eq_true_eq, hlt]
  rw [exec_set_next hf rfl hfits, State.writeReg, BitVec.setWidth_setWidth_of_le _ (by decide),
    BitVec.setWidth_eq]

/-- ACC on a range put into its registers sums the range onto SUM (rule R120). -/
theorem accRange_next {s : State} {a n : Word} {bs : List Byte} (hf : s.fault = false)
    (hle : a.toNat + n.toNat ≤ 2 ^ 32) (hlen : bs.length = n.toNat) (hbs : HoldsBytes s.mem a.toNat bs) :
    execAll [.set .addr a, .set .len n, .acc] s =
      .next { s with addr := a, len := n, sum := csum bs s.sum } := by
  have hread : memRead s.mem a.toNat n.toNat = .ok bs := memRead_ok_iff.mpr ⟨hle, hlen, hbs⟩
  rw [execAll_cons_next (exec_set_next hf rfl (fits_of_width rfl a)),
    execAll_cons_next (exec_set_next (by rwa [writeReg_fault]) rfl (fits_of_width rfl n)),
    execAll_cons_next (exec_acc_of_ok (by rwa [writeReg_fault, writeReg_fault]) hread)]
  rfl

/-- Settles O45: each ACC adds its range to the sum so far, and an even first range ends on a whole
word. -/
theorem scalarContract : Obligations.ScalarContract := by
  intro s a n b k init xs ys hf hle hlen hxs hle' hlen' hys
  have hfirst : execAll [.set .sum (init.setWidth 32), .set .addr a, .set .len n, .acc] s =
      .next { s with addr := a, len := n, sum := csum xs init } :=
    (execAll_cons_next (exec_setSum hf init)).trans (accRange_next hf hle hlen hxs)
  refine ⟨hfirst, fun heven => ?_⟩
  rw [csum_append (hlen ▸ heven)]
  exact (execAll_append hfirst).trans (accRange_next hf hle' hlen' hys)

end Sys2Proof.Machine

/-! Walks over fed segments (spec/42_walker.md section 2). -/

namespace Sys2Proof.Machine

section
variable {s t : State}

/-- What feeding segments leaves alone: the latch, memory, the port, and the header's registers. -/
theorem FedFrom.sameLatch (h : FedFrom s t) : SameLatch s t := by
  simp only [FedFrom] at h
  simp only [SameLatch, h, and_self]

theorem FedFrom.mem_eq (h : FedFrom s t) : t.mem = s.mem := by
  simp only [FedFrom] at h
  simp only [h]

theorem FedFrom.port_eq (h : FedFrom s t) : t.port = s.port := by
  simp only [FedFrom] at h
  simp only [h]

theorem FedFrom.coff_eq (h : FedFrom s t) : t.coff = s.coff := by
  simp only [FedFrom] at h
  simp only [h]

theorem FedFrom.readHeader_eq (h : FedFrom s t) : t.readHeader = s.readHeader := by
  simp only [FedFrom] at h
  simp only [State.readHeader, h]

theorem FedFrom.clear (h : FedFrom s t) (hf : s.fault = false) : t.fault = false :=
  h.sameLatch.1.trans hf

end

/-- A stream run from an aligned state and finished leaves its checksum, and nothing pending. -/
theorem finish_run {st : Pairing} (hp : st.pend = none) (bs : List Byte) :
    finish (run st bs) = ⟨csum bs st.sum, none⟩ := by
  obtain ⟨sum, pend⟩ := st
  cases hp
  exact congrArg (Pairing.mk (csum bs sum)) (finish_pend (run ⟨sum, none⟩ bs))

/-- Segments fed to a walk with nothing pending, then FIN: SUM gets the checksum of the selected bytes. -/
theorem feed_fin_next {s : State} {segs : List (Word × Word)} {stream : List Byte}
    (hf : s.fault = false) (hs : streamOf s.mem segs = .ok stream) (hp : s.pend = none) :
    ∃ t, execAll (feed segs ++ [.fin]) s = .next t ∧ FedFrom s t ∧
      t.sum = csum (takenOf s.skip.toNat s.rem.toNat stream) s.sum ∧ t.pend = none ∧
      t.skip.toNat = s.skip.toNat - min s.skip.toNat stream.length ∧
      t.rem.toNat = s.rem.toNat - min s.rem.toNat (stream.length - min s.skip.toNat stream.length) := by
  obtain ⟨u, hu, hfed, hpairing, hskip, hrem⟩ := feed_next segs hf hs
  have hfinish : finish u.pairing = ⟨csum (takenOf s.skip.toNat s.rem.toNat stream) s.sum, none⟩ := by
    rw [hpairing, finish_run (st := s.pairing) hp, pairing_sum]
  refine ⟨u.withPairing (finish u.pairing), ?_, hfed, ?_, ?_, hskip, hrem⟩
  · rw [execAll_append hu, execAll_cons_next (exec_fin (hfed.clear hf))]
    rfl
  · rw [hfinish]; rfl
  · rw [hfinish]; rfl

/-- The selected bytes by their first and last place in the stream, both clamped to its end (rule
R137). -/
theorem takenOf_eq_slice (off size : Nat) (bs : List Byte) :
    takenOf off size bs = (bs.take (min (off + size) bs.length)).drop (min off bs.length) := by
  rw [takenOf, List.drop_take]
  congr 1
  omega

/-- Settles O46: the walk's counters start at OFF and SIZE, and feeding depends on the concatenation
alone. -/
theorem walkSumsTheSelectionHoweverItIsCut : Obligations.WalkSumsTheSelectionHoweverItIsCut := by
  intro s segs stream hf hs lo hi
  obtain ⟨t, ht, hfed, hsum, hpend, hskip, hrem⟩ :=
    feed_fin_next (s := (s.withPairing ⟨s.sum, none⟩).withSelection s.off s.size) hf hs rfl
  refine ⟨t, ?_, ?_, hpend, hskip, ?_, hfed.clear hf, hfed.port_eq⟩
  · rw [List.append_assoc]
    exact (execAll_cons_next (exec_walk hf)).trans ht
  · rw [hsum, takenOf_eq_slice]
    rfl
  · rw [hrem, withSelection_skip, withSelection_rem]
    omega

/-- A SEGI with nothing left to select reads nothing, and changes no sum (rule R133). -/
theorem segi_of_rem_zero {s : State} {a n : Word} (hf : s.fault = false) (hrem : s.rem = 0)
    (hle : a.toNat + n.toNat ≤ 2 ^ 32) :
    ∃ t, execAll [.set .addr a, .set .len n, .seg] s = .next t ∧
      t.fault = false ∧ t.rem = 0 ∧ t.pairing = s.pairing := by
  rw [execAll_cons_next (exec_set_next hf rfl (fits_of_width rfl a)),
    execAll_cons_next (exec_set_next (by rwa [writeReg_fault]) rfl (fits_of_width rfl n))]
  set u := (s.writeReg .addr a).writeReg .len n with hu
  have hrem' : u.rem = 0 := hrem
  have htake : u.segTake = 0 := by rw [State.segTake, hrem']; exact Nat.zero_min _
  have hread : u.readTaken = .ok [] := by
    rw [readTaken_eq_readBytes (s := u) hle, htake]
    rfl
  refine ⟨_, execAll_cons_next (exec_seg_of_ok (s := u) hf hread), hf, ?_, rfl⟩
  rw [withSelection_rem, hrem', htake]
  rfl

/-- So feeding segments to an empty selection changes no sum, whether they are populated or not. -/
theorem feed_of_rem_zero : ∀ (segs : List (Word × Word)) {s : State}, s.fault = false → s.rem = 0 →
    (∀ g ∈ segs, g.1.toNat + g.2.toNat ≤ 2 ^ 32) →
    ∃ t, execAll (feed segs) s = .next t ∧ t.fault = false ∧ t.rem = 0 ∧ t.pairing = s.pairing
  | [], s, hf, hrem, _ => ⟨s, rfl, hf, hrem, rfl⟩
  | (a, n) :: segs, s, hf, hrem, hle => by
    obtain ⟨hhead, htail⟩ := List.forall_mem_cons.mp hle
    obtain ⟨u, hu, hfu, hremu, hpu⟩ := segi_of_rem_zero hf hrem hhead
    obtain ⟨t, ht, hft, hremt, hpt⟩ := feed_of_rem_zero segs hfu hremu htail
    exact ⟨t, (execAll_append hu).trans ht, hft, hremt, hpt.trans hpu⟩

/-- Settles O47: the walk starts with REM 0 and nothing pending, so FIN has nothing to flush. -/
theorem emptySelectionLeavesTheSum : Obligations.EmptySelectionLeavesTheSum := by
  intro s segs hf hsize hle
  obtain ⟨t, ht, hft, hrem, hp⟩ := feed_of_rem_zero segs
    (s := (s.withPairing ⟨s.sum, none⟩).withSelection s.off s.size) hf hsize hle
  have hpend : t.pairing.pend = none := congrArg Pairing.pend hp
  refine ⟨t, ?_, congrArg Pairing.sum hp, hpend, hrem, hft⟩
  rw [List.append_assoc, List.singleton_append, execAll_cons_next (exec_walk hf), execAll_append ht,
    execAll_cons_next (exec_fin hft), finish_of_none hpend]
  rfl

end Sys2Proof.Machine

/-! The composers' contracts (spec/44_composers.md). -/

namespace Sys2Proof.Machine

/-- The whole of a payload is selected when the counters are those an opening command leaves. -/
theorem takenOf_zero_length (bs : List Byte) : takenOf 0 bs.length bs = bs := by
  simp [takenOf]

/-- From an opened composition, the payload's segments and then CCLOSE: SUM gets the masked header's sum
on the payload's sum (rules R133, R166). -/
theorem feed_cclose_next {o : State} {segs : List (Word × Word)} {payload h : List Byte}
    (hf : o.fault = false) (hs : streamOf o.mem segs = .ok payload) (hp : o.pend = none)
    (hskip : o.skip = 0) (hrem : o.rem.toNat = payload.length) (hr : o.readHeader = .ok h) :
    ∃ t, execAll (feed segs ++ [.cclose]) o = .next t ∧ FedFrom o t ∧
      t.sum = csum (masked h o.coff.toNat) (csum payload o.sum) := by
  obtain ⟨u, hu, hfed, hpairing, -, -⟩ := feed_next segs hf hs
  have hzero : (0 : Word).toNat = 0 := rfl
  have hpayload : finish u.pairing = ⟨csum payload o.sum, none⟩ := by
    rw [hpairing, hskip, hrem, hzero, takenOf_zero_length, finish_run (st := o.pairing) hp, pairing_sum]
  refine ⟨_, (execAll_append hu).trans
    (execAll_cons_next (exec_cclose_of_ok (hfed.clear hf) (hfed.readHeader_eq.trans hr))), hfed, ?_⟩
  rw [withPairing_sum, hpayload, hfed.coff_eq]

/-- The same with the host's GET of CSUM behind it: the response is the complement of that sum. -/
theorem feed_cclose_get_next {o : State} {segs : List (Word × Word)} {payload h : List Byte}
    (hf : o.fault = false) (hs : streamOf o.mem segs = .ok payload) (hp : o.pend = none)
    (hskip : o.skip = 0) (hrem : o.rem.toNat = payload.length) (hr : o.readHeader = .ok h) :
    ∃ t, execAll (feed segs ++ [.cclose, .get .csum]) o = .next t ∧
      t.port = o.port ++
        [⟨true, (~~~ csum (masked h o.coff.toNat) (csum payload o.sum)).setWidth 32⟩] ∧
      SameLatch o t ∧ t.mem = o.mem := by
  obtain ⟨u, hu, hfed, hsum⟩ := feed_cclose_next hf hs hp hskip hrem hr
  have hanswer : u.answer .csum = ⟨true, (~~~ u.sum).setWidth 32⟩ := by
    simp only [State.answer, hfed.clear hf, Bool.false_eq_true, false_and, if_false]
    rfl
  refine ⟨u.respond (u.answer .csum), ?_, ?_, hfed.sameLatch, hfed.mem_eq⟩
  · have hlist : feed segs ++ [.cclose, .get .csum] = feed segs ++ [.cclose] ++ [.get .csum] := by simp
    rw [hlist, execAll_append hu]
    rfl
  · rw [respond_port, hanswer, hsum, hfed.port_eq]

/-- The operands of a composition: where the header lies, and the payload's size. -/
theorem setComposition_next {s : State} (hf : s.fault = false) (a n size : Word) :
    execAll [.set .haddr a, .set .hlen n, .set .size size] s =
      .next { s with haddr := a, hlen := n, size := size } := by
  rw [execAll_cons_next (exec_set_next hf rfl (fits_of_width rfl a)),
    execAll_cons_next (exec_set_next (by rwa [writeReg_fault]) rfl (fits_of_width rfl n)),
    execAll_cons_next
      (exec_set_next (by rwa [writeReg_fault, writeReg_fault]) rfl (fits_of_width rfl size))]
  rfl

/-- A composition from its operands to the answer: `opening` is C4OPEN or C6OPEN, and `init` the sum it
starts from. -/
theorem composition_next {s : State} {a n size : Word} {opening : Instr} {init : Half}
    {h payload : List Byte} {segs : List (Word × Word)}
    (hf : s.fault = false) (hle : a.toNat + n.toNat ≤ 2 ^ 32) (hlen : h.length = n.toNat)
    (hbs : HoldsBytes s.mem a.toNat h) (hs : streamOf s.mem segs = .ok payload)
    (hsize : size.toNat = payload.length)
    (hopen : exec opening { s with haddr := a, hlen := n, size := size } =
      .next ((({ s with haddr := a, hlen := n, size := size } : State).withPairing
        ⟨init, none⟩).withSelection 0 size)) :
    ∃ t, execAll ([.set .haddr a, .set .hlen n, .set .size size, opening] ++ feed segs ++
        [.cclose, .get .csum]) s = .next t ∧
      t.port = s.port ++ [⟨true, (~~~ csum (masked h s.coff.toNat) (csum payload init)).setWidth 32⟩] ∧
      SameLatch s t ∧ ∀ x, Memory.read t.mem x = Memory.read s.mem x := by
  obtain ⟨t, ht, hport, hlatch, hmem⟩ := feed_cclose_get_next
    (o := (({ s with haddr := a, hlen := n, size := size } : State).withPairing
      ⟨init, none⟩).withSelection 0 size)
    hf hs rfl rfl hsize (memRead_ok_iff.mpr ⟨hle, hlen, hbs⟩)
  refine ⟨t, ?_, hport, hlatch, fun x => congrArg (Memory.read · x) hmem⟩
  rw [List.append_assoc]
  exact (execAll_append (is := [.set .haddr a, .set .hlen n, .set .size size])
    (setComposition_next hf a n size)).trans ((execAll_cons_next hopen).trans ht)

/-- Settles O48: a composition opened by C4OPEN starts from 0. -/
theorem icmp4Contract : Obligations.Icmp4Contract :=
  fun _ _ _ _ _ _ _ hf hle hlen hbs hs hsize =>
    composition_next hf hle hlen hbs hs hsize (exec_c4open hf)

/-- Settles O49: a composition opened by C6OPEN starts from the pseudo-header's sum. -/
theorem icmp6Contract : Obligations.Icmp6Contract :=
  fun _ _ _ _ _ _ _ _ hf hle hlen hbs hs hsize hu =>
    composition_next hf hle hlen hbs hs hsize (exec_c6open_of_ok hf (icmp6Length_of_eq hu))

/-- The header summed first, and then a walk over the payload opened on its sum. -/
theorem headerFirst_next {s : State} {h : List Byte} (hf : s.fault = false)
    (hr : s.readHeader = .ok h) : execAll [.set .sum 0, .hdr, .set .off 0, .walk] s =
      .next ((({ s with off := 0 } : State).withPairing
        ⟨csum (masked h s.coff.toNat) 0, none⟩).withSelection 0 s.size) := by
  have hset : exec (.set .sum 0) s = .next { s with sum := 0 } := exec_setSum hf 0
  have hhdr := exec_hdr_of_ok (s := { s with sum := 0 }) hf hr
  rw [execAll_cons_next hset, execAll_cons_next hhdr,
    execAll_cons_next (exec_set_next (by exact hf) rfl (by decide)),
    execAll_cons_next (exec_walk (by exact hf))]
  rfl

/-- Settles O50: both orders sum the masked header and the payload, each onto the other. -/
theorem compositionOrderDoesNotMatter : Obligations.CompositionOrderDoesNotMatter := by
  intro s h payload segs hf hle hlen hbs hs hsize
  have hr : s.readHeader = .ok h := readHeader_of_holdsBytes hle hlen hbs
  obtain ⟨t, ht, -, htsum⟩ := feed_cclose_next
    (o := (s.withPairing ⟨0, none⟩).withSelection 0 s.size) hf hs rfl rfl hsize hr
  obtain ⟨u, hu, -, husum, -⟩ := feed_fin_next
    (s := (({ s with off := 0 } : State).withPairing
      ⟨csum (masked h s.coff.toNat) 0, none⟩).withSelection 0 s.size) hf hs rfl
  refine ⟨t, u, ?payloadFirst, ?headerFirst, ?sums⟩
  case payloadFirst =>
    rw [List.append_assoc]
    exact (execAll_cons_next (exec_c4open hf)).trans ht
  case headerFirst =>
    rw [List.append_assoc]
    exact (execAll_append (headerFirst_next hf hr)).trans hu
  case sums =>
    have hzero : (0 : Word).toNat = 0 := rfl
    rw [withSelection_skip, withSelection_rem, hsize, hzero, takenOf_zero_length] at husum
    calc t.sum
        = csum (masked h s.coff.toNat) (csum payload 0) := htsum
      _ = csum payload (csum (masked h s.coff.toNat) 0) := csum_csum_comm ..
      _ = u.sum := husum.symm

end Sys2Proof.Machine

/-! Storing and verifying a checksum (44_composers.md, 'Storing the result, and the round trip' and 'The
two verification methods'). -/

namespace Sys2Proof.Machine

theorem masked_cons_succ (b : Byte) (h : List Byte) (c : Nat) :
    masked (b :: h) (c + 1) = b :: masked h c := by
  simp [masked, List.mapIdx_cons]

theorem masked_cons_cons_zero (a b : Byte) (h : List Byte) : masked (a :: b :: h) 0 = 0 :: 0 :: h := by
  have hrest : h.mapIdx (fun _ b => b) = h := List.ext_getElem (by simp) (by simp)
  simp [masked, List.mapIdx_cons, hrest]

/-- An even-placed field is one word of the header, and masking takes it out of the sum (rule R161). -/
theorem wordSum_eq_masked_add : ∀ (h : List Byte) {c : Nat} {hi lo : Byte}, c % 2 = 0 →
    h[c]? = some hi → h[c + 1]? = some lo →
    wordSum h = wordSum (masked h c) + (hi.toNat * 256 + lo.toNat)
  | [], _, _, _, _, hhi, _ => by simp at hhi
  | [_], c, _, _, _, _, hlo => by simp at hlo
  | a :: b :: h, 0, hi, lo, _, hhi, hlo => by
    cases hhi
    cases hlo
    rw [masked_cons_cons_zero, wordSum_cons_cons, wordSum_cons_cons]
    simp
    omega
  | a :: b :: h, 1, _, _, heven, _, _ => by omega
  | a :: b :: h, c + 2, hi, lo, heven, hhi, hlo => by
    have ih := wordSum_eq_masked_add h (c := c) (by omega) hhi hlo
    rw [masked_cons_succ, masked_cons_succ, wordSum_cons_cons, wordSum_cons_cons, ih]
    omega

/-- So the header as it stands sums to its masked sum and the word in the field (rules R166, R169). -/
theorem csum_eq_masked_ocadd {h : List Byte} {c : Nat} {hi lo : Byte} (heven : c % 2 = 0)
    (hhi : h[c]? = some hi) (hlo : h[c + 1]? = some lo) (i : Half) :
    csum h i = ocadd (csum (masked h c) i) (word hi lo) := by
  apply BitVec.eq_of_toNat_eq
  rw [csum_toNat, ocadd_toNat, csum_toNat, canon_canon_add, word_toNat,
    wordSum_eq_masked_add h heven hhi hlo, Nat.add_assoc]

/-- A sum and a field verify when they are complements, or when both are the all-ones zero (rule
R170). -/
theorem ocadd_eq_allOnes_iff_compl (S0 F : Half) :
    ocadd S0 F = 0xFFFF ↔ F = ~~~ S0 ∨ S0 = 0xFFFF ∧ F = 0xFFFF := by
  have hS := S0.isLt
  have hF := F.isLt
  have hones : (0xFFFF : Half).toNat = 0xFFFF := rfl
  rw [ocadd_eq_allOnes_iff, ← BitVec.toNat_inj, ← BitVec.toNat_inj, ← BitVec.toNat_inj,
    BitVec.toNat_not, hones]
  omega

/-- Settles O52: CCLOSE and CVERIFY end the same walk, and their sums differ by the word in the field. -/
theorem verificationMethodsDifferInOneCase : Obligations.VerificationMethodsDifferInOneCase := by
  refine ⟨fun s h hi lo hf hle hlen hbs heven hhi hlo => ?_, ocadd_eq_allOnes_iff_compl⟩
  have hr := readHeader_of_holdsBytes hle hlen hbs
  have hsum := csum_eq_masked_ocadd heven hhi hlo (finish s.pairing).sum
  refine ⟨_, _, exec_cclose_of_ok hf hr, exec_cverify_of_ok hf hr, hsum, ?_⟩
  refine (vok_iff_of_clear (s := s.withPairing ⟨csum h (finish s.pairing).sum, none⟩) hf).trans ?_
  rw [withPairing_sum, hsum]
  exact ocadd_eq_allOnes_iff_compl _ _

/-- A word stored big-endian is the word of its two bytes (rule R100). -/
theorem word_extractLsb (x : Half) : word (x.extractLsb' 8 8) (x.extractLsb' 0 8) = x := by
  apply BitVec.eq_of_toNat_eq
  have hlt := x.isLt
  simp only [word_toNat, BitVec.extractLsb'_toNat, Nat.shiftRight_eq_div_pow]
  omega

/-- A byte of a header in memory is the byte read at its address. -/
theorem getElem?_of_holdsBytes {m : Memory} {a : Nat} {bs : List Byte} (h : HoldsBytes m a bs) {j : Nat}
    {b : Byte} (hj : j < bs.length) (hb : Memory.read m (a + j) = some b) : bs[j]? = some b := by
  rw [List.getElem?_eq_getElem hj, ← read_of_holdsBytes h hj, hb]

/-- Settles O51: the stored word is the complement of the sum CCLOSE left, which the store does not
change. -/
theorem storedChecksumVerifies : Obligations.StoredChecksumVerifies := by
  intro s t h m hf hle hlen hbs heven hinside hexec hm
  have hout (a : Nat) (hhi : a ≠ s.haddr.toNat + s.coff.toNat)
      (hlo : a ≠ s.haddr.toNat + s.coff.toNat + 1) : Memory.read m a = Memory.read s.mem a := by
    rw [hm, if_neg hhi, if_neg hlo]
  have hpop (a : Nat) : (Memory.read m a).isSome = (Memory.read s.mem a).isSome := by
    rw [hm]
    split_ifs with hhi hlo
    · rw [hhi, read_of_holdsBytes hbs (by omega)]; rfl
    · rw [hlo, Nat.add_assoc, read_of_holdsBytes hbs (by omega)]; rfl
    · rfl
  have hcclose := headerFieldBytesAreIgnored .cclose s t m (.inr rfl) hout hpop hexec
  obtain ⟨v, hr, -⟩ | ⟨-, h', -, hr', -⟩ := readHeader_of_sameOutsideField hout hpop
  · exact nomatch hr.symm.trans (readHeader_of_holdsBytes hle hlen hbs)
  obtain ⟨-, hlen', hbs'⟩ : s.haddr.toNat + s.hlen.toNat ≤ 2 ^ 32 ∧ h'.length = s.hlen.toNat ∧
      HoldsBytes m s.haddr.toNat h' := memRead_ok_iff.mp hr'
  have hhi : h'[s.coff.toNat]? = some (t.csumView.extractLsb' 8 8) :=
    getElem?_of_holdsBytes hbs' (by omega) (by rw [hm, if_pos rfl])
  have hlo : h'[s.coff.toNat + 1]? = some (t.csumView.extractLsb' 0 8) :=
    getElem?_of_holdsBytes hbs' (by omega) (by rw [hm, ← Nat.add_assoc, if_neg (by omega), if_pos rfl])
  obtain ⟨t', u, ht', hu, hsum, hvok⟩ := verificationMethodsDifferInOneCase.1 { s with mem := m } h' _ _
    hf hle hlen' hbs' heven hhi hlo
  cases hcclose.symm.trans ht'
  rw [word_extractLsb] at hsum hvok
  exact ⟨u, hu, hsum.trans (ocadd_not_self t.sum), hvok.mpr (.inl rfl)⟩

end Sys2Proof.Machine
